-- ==== Sys2Proof/Word.lean ====
section
/-! DEFINITION. Values the engine moves (00_scope.md R8, R9, R14): bytes, nibbles, command words, levels, modes, the six lines and the classes of waits. -/

namespace Sys2Proof

/-- R8: an unsigned 8-bit value. -/
abbrev Byte := BitVec 8

/-- R8: a 4-bit value, the unit put on the bus per pulse. -/
abbrev Nibble := BitVec 4

/-- R70: a host command word, `OP` 18:16, `A` 15:8, `B` 7:0. -/
abbrev CmdWord := BitVec 19

/-- R9: a Level; as a bit, Low is 0 and High is 1. -/
inductive Level where
  | low
  | high
  deriving DecidableEq, Repr, Inhabited

/-- R9: RsMode; as a bit, Command is 0 and Character is 1. -/
inductive RsMode where
  | command
  | character
  deriving DecidableEq, Repr, Inhabited

/-- R21: the six logical lines. -/
inductive Line where
  | rs
  | en
  | d4
  | d5
  | d6
  | d7
  deriving DecidableEq, Repr

/-- R10: the classes of `Wait`. -/
inductive WaitClass where
  | enHold
  | short
  | long
  | pwr
  | gap1
  | gap2
  | gap3
  | fourBit
  deriving DecidableEq, Repr

/-- R9: a bit as a level. -/
def Level.ofBit (b : Bool) : Level := if b then .high else .low

/-- R9: a level as a bit. -/
def Level.toBit : Level → Bool
  | .low => false
  | .high => true

/-- R9, R80: `level(Command) = Low`, `level(Character) = High`. -/
def RsMode.level : RsMode → Level
  | .command => .low
  | .character => .high

/-- R80: a mode bit, 0 Command, 1 Character. -/
def RsMode.ofBit (b : Bool) : RsMode := if b then .character else .command

/-- R80: a mode as a bit. -/
def RsMode.toBit : RsMode → Bool
  | .command => false
  | .character => true

end Sys2Proof
end

