-- ==== Sys2Proof/Config.lean ====
section
/-! DEFINITION. The parameters of 00_scope.md R6 and the free values. Configuration is not state (10_state.md R26): the operations take it as an argument. -/

namespace Sys2Proof

/-- R6, R211: the physical identifier of each logical role, "pairwise distinct" (D30). -/
structure LineAssignment where
  rs : Nat
  en : Nat
  d4 : Nat
  d5 : Nat
  d6 : Nat
  d7 : Nat
  distinct : [rs, en, d4, d5, d6, d7].Nodup
  deriving DecidableEq, Repr

/-- The identifier of a line. -/
def LineAssignment.id (a : LineAssignment) : Line → Nat
  | .rs => a.rs
  | .en => a.en
  | .d4 => a.d4
  | .d5 => a.d5
  | .d6 => a.d6
  | .d7 => a.d7

/-- The command bytes that the pseudocode names (R6, R131, R151). -/
inductive CmdName where
  | funcset
  | dispOff
  | clear
  | entry
  | dispOn
  deriving DecidableEq, Repr

/-- The raw nibbles that the pseudocode names (R6, R131). -/
inductive NibName where
  | fs8
  | fs4
  deriving DecidableEq, Repr

/-- R6: the parameters of an instance; constants of it and arguments of the step (R26). Times are in microseconds. `MAX_STR_LEN` is a bound of the encoding and stands in WellFormed. -/
structure Params where
  lines : LineAssignment
  tEnHoldUs : Nat
  tShortMinUs : Nat
  tShortMaxUs : Nat
  tLongMinUs : Nat
  tLongMaxUs : Nat
  longLevel : Level
  tPwrMinUs : Nat
  tPwrMaxUs : Nat
  tGap1MinUs : Nat
  tGap1MaxUs : Nat
  tGap2MinUs : Nat
  tGap2MaxUs : Nat
  tGap3MinUs : Nat
  tGap3MaxUs : Nat
  t4BitMinUs : Nat
  t4BitMaxUs : Nat
  nibFs8 : Nibble
  nibFs4 : Nibble
  cmdFuncset : Byte
  cmdDispOff : Byte
  cmdClear : Byte
  cmdEntry : Byte
  cmdDispOn : Byte
  cmdSetDdram : Byte
  row2Base : Byte
  nRows : Nat
  nCols : Nat
  strictRow : Bool
  rsLoopback : Bool
  collabFaults : Bool
  clkHz : Nat
  deriving DecidableEq, Repr

/-- R6, R12: the minimum of each class of wait. -/
def Params.minUs (P : Params) : WaitClass → Nat
  | .enHold => P.tEnHoldUs
  | .short => P.tShortMinUs
  | .long => P.tLongMinUs
  | .pwr => P.tPwrMinUs
  | .gap1 => P.tGap1MinUs
  | .gap2 => P.tGap2MinUs
  | .gap3 => P.tGap3MinUs
  | .fourBit => P.t4BitMinUs

/-- R6: the value of a named command byte. -/
def Params.cmd (P : Params) : CmdName → Byte
  | .funcset => P.cmdFuncset
  | .dispOff => P.cmdDispOff
  | .clear => P.cmdClear
  | .entry => P.cmdEntry
  | .dispOn => P.cmdDispOn

/-- R6: the value of a named raw nibble. -/
def Params.nib (P : Params) : NibName → Nibble
  | .fs8 => P.nibFs8
  | .fs4 => P.nibFs4

namespace Config

/-- R6, OPEN: the line identifiers of the instance, its values at 0 to 5; a permutation, so that they are pairwise distinct and every six distinct numbers are possible (D30, log 11, log 23). -/
opaque lineId : Equiv.Perm Nat

/-- R6, OPEN: the display width, read by no rule (log 11). -/
opaque nCols : Nat

/-- R6, D29, OPEN: the clock, read by no rule but the conversion of R210 (log 11). -/
opaque clkHz : Nat

/-- R6, OPEN: how far an upper hint lies above its minimum, one value per hint (log 11). -/
opaque hintSlack : Nat → Nat

/-- R22 with `RS_LOOPBACK = false`: the level sampled when the input list is used up (FREE VALUE, log 7). -/
opaque freeSample : Nat → Level

/-- R202 with `COLLAB_FAULTS = true`: whether a collaborator call fails when the input list is used up (FREE VALUE, log 8). -/
opaque freeFailure : Nat → Bool

/-- R6, D30: the LineAssignment of the instance. -/
def lines : LineAssignment where
  rs := lineId 0
  en := lineId 1
  d4 := lineId 2
  d5 := lineId 3
  d6 := lineId 4
  d7 := lineId 5
  distinct := List.Nodup.map lineId.injective (by decide : [0, 1, 2, 3, 4, 5].Nodup)

/-- R6: the values of this spec. The decided ones are D9, D10, D13, D18, D23 (log 10); the OPEN ones have no body. -/
def defaults : Params where
  lines := lines
  tEnHoldUs := 1
  tShortMinUs := 200
  tShortMaxUs := 200 + hintSlack 0
  tLongMinUs := 4500
  tLongMaxUs := 5500
  longLevel := .high
  tPwrMinUs := 15000
  tPwrMaxUs := 15000 + hintSlack 1
  tGap1MinUs := 4100
  tGap1MaxUs := 4100 + hintSlack 2
  tGap2MinUs := 100
  tGap2MaxUs := 100 + hintSlack 3
  tGap3MinUs := 0
  tGap3MaxUs := 0 + hintSlack 5
  t4BitMinUs := 4100
  t4BitMaxUs := 4100 + hintSlack 4
  nibFs8 := 0b0011
  nibFs4 := 0b0010
  cmdFuncset := 0x28
  cmdDispOff := 0x08
  cmdClear := 0x01
  cmdEntry := 0x06
  cmdDispOn := 0x0C
  cmdSetDdram := 0x80
  row2Base := 0x40
  nRows := 2
  nCols := nCols
  strictRow := false
  rsLoopback := true
  collabFaults := false
  clkHz := clkHz

end Config

end Sys2Proof
end

