-- ==== Sys2Proof/Syntax.lean ====
section
/-! DEFINITION. The instruction set: one constructor for each row of spec/opcode_table.json. -/

namespace Sys2Proof

/-- The nine host rows (30_encoding.md R72) and the nine rows of what the engine emits toward the LCD (R77 to R79). -/
inductive Instr where
  /-- INIT, R131. -/
  | init
  /-- CLEAR, R151. -/
  | clear
  /-- SETCUR row, column, R152. -/
  | setcur (row column : Byte)
  /-- PUTC c, R153. -/
  | putc (c : Byte)
  /-- PUTS of `len` bytes, which are read from the payload channel, R154 (any length abstractly, at most 255 in a word, R75). -/
  | puts (len : Nat)
  /-- PUTS.NULL, R155. -/
  | putsNull
  /-- WRB byte, mode, R104. -/
  | wrb (byte : Byte) (mode : RsMode)
  /-- RESERVED6, R215. -/
  | reserved6
  /-- RESERVED7, R215. -/
  | reserved7
  /-- LCD.CLEAR, R77. -/
  | lcdClear
  /-- LCD.ENTRY, R77. -/
  | lcdEntry
  /-- LCD.DISP_OFF, R77. -/
  | lcdDispOff
  /-- LCD.DISP_ON, R77. -/
  | lcdDispOn
  /-- LCD.FUNCSET, R77. -/
  | lcdFuncset
  /-- LCD.SET_DDRAM with the seven address bits, R77. -/
  | lcdSetDdram (a : BitVec 7)
  /-- LCD.DATA, R78. -/
  | lcdData (d : Byte)
  /-- LCD.NIB_FS8, R79. -/
  | lcdNibFs8
  /-- LCD.NIB_FS4, R79. -/
  | lcdNibFs4
  deriving DecidableEq, Repr

/-- The three places an encoding of the table stands in: a host command word (R70), a byte on the LCD bus with its RS level (R76), a raw nibble (R79). -/
inductive BusWord where
  /-- A 19-bit word on the command channel. -/
  | host (w : CmdWord)
  /-- A byte write to the LCD port that RS selects. -/
  | lcdByte (rs : Level) (b : Byte)
  /-- A raw nibble pulse. -/
  | lcdNibble (n : Nibble)
  deriving DecidableEq, Repr

/-- Why the decoder gives no row of the table. -/
inductive Reject where
  /-- A command byte that INIT, CLEAR and SETCUR never emit (R77); only WRB can send it. -/
  | commandByteOfNoRow (b : Byte)
  /-- A raw nibble that INIT never emits (R79). -/
  | rawNibbleOfNoRow (n : Nibble)
  deriving DecidableEq, Repr

end Sys2Proof
end

