-- ==== Sys2Proof/WellFormed.lean ====
section
/-! DEFINITION. Which instructions the encodings can spell. Every operand but a string's length has the width of its field by its type (30_encoding.md R70, R71). -/

namespace Sys2Proof

/-- R6 `MAX_STR_LEN`, D4: the longest string one command word carries. -/
def maxStrLen : Nat := 255

/-- R75: "A string longer than 255 bytes cannot be handed over in one PUTS in this encoding". -/
def Instr.wf : Instr → Bool
  | .puts len => len ≤ maxStrLen
  | .init | .clear | .setcur _ _ | .putc _ | .putsNull | .wrb _ _ | .reserved6 | .reserved7 => true
  | .lcdClear | .lcdEntry | .lcdDispOff | .lcdDispOn | .lcdFuncset => true
  | .lcdSetDdram _ | .lcdData _ | .lcdNibFs8 | .lcdNibFs4 => true

/-- A well-formed instruction. -/
abbrev Instr.WellFormed (i : Instr) : Prop := i.wf = true

end Sys2Proof
end

