-- ==== Sys2Proof/Decode.lean ====
section
/-! DEFINITION. Encodings (30_encoding.md): the decoder, total on every word, then the encoder, written from the same tables. -/

namespace Sys2Proof

/-! The bytes and nibbles of the table's LCD-side rows, as R77 and R79 spell them. An instance sends its parameters (R6), whose values in this spec are these. -/

/-- R77, `CMD_CLEAR`. -/
def cmdClear : Byte := 0x01

/-- R77, `CMD_ENTRY`. -/
def cmdEntry : Byte := 0x06

/-- R77, `CMD_DISP_OFF`. -/
def cmdDispOff : Byte := 0x08

/-- R77, `CMD_DISP_ON`; the literal wins over its prose meaning (90_conflicts.md C5). -/
def cmdDispOn : Byte := 0x0C

/-- R77, `CMD_FUNCSET`. -/
def cmdFuncset : Byte := 0x28

/-- R79, `NIB_FS8`. -/
def nibFs8 : Nibble := 0b0011

/-- R79, `NIB_FS4`. -/
def nibFs4 : Nibble := 0b0010

/-! Fields of the command word (R70). -/

/-- `OP`, bits 18:16. -/
def opField (w : CmdWord) : BitVec 3 := w.extractLsb' 16 3

/-- `A`, bits 15:8. -/
def aField (w : CmdWord) : Byte := w.extractLsb' 8 8

/-- `B`, bits 7:0. -/
def bField (w : CmdWord) : Byte := w.extractLsb' 0 8

/-- R72: "Every value of `OP` is listed; a decoder needs nothing else." Bits an operation does not use are ignored (R73). -/
def decodeWord (w : CmdWord) : Instr :=
  match (opField w).toNat with
  | 0 => .init
  | 1 => .clear
  | 2 => .setcur (aField w) (bField w)
  | 3 => .putc (bField w)
  | 4 => if (aField w).getLsbD 0 then .puts (bField w).toNat else .putsNull
  | 5 => .wrb (bField w) (RsMode.ofBit ((aField w).getLsbD 0))
  | 6 => .reserved6
  | _ => .reserved7

/-- R77: the command bytes, RS Low. -/
def decodeCommandByte (b : Byte) : Except Reject Instr :=
  if b = cmdClear then .ok .lcdClear
  else if b = cmdEntry then .ok .lcdEntry
  else if b = cmdDispOff then .ok .lcdDispOff
  else if b = cmdDispOn then .ok .lcdDispOn
  else if b = cmdFuncset then .ok .lcdFuncset
  else if b.getLsbD 7 then .ok (.lcdSetDdram (b.extractLsb' 0 7))
  else .error (.commandByteOfNoRow b)

/-- R79: the raw nibbles. -/
def decodeNibble (n : Nibble) : Except Reject Instr :=
  if n = nibFs8 then .ok .lcdNibFs8
  else if n = nibFs4 then .ok .lcdNibFs4
  else .error (.rawNibbleOfNoRow n)

/-- The decoder, total on every word of the three kinds. -/
def decode : BusWord → Except Reject Instr
  | .host w => .ok (decodeWord w)
  | .lcdByte .low b => decodeCommandByte b
  | .lcdByte .high b => .ok (.lcdData b)
  | .lcdNibble n => decodeNibble n

/-- R70: the word of an opcode and its two operand fields. -/
def packWord (op : BitVec 3) (a b : Byte) : CmdWord := op ++ a ++ b

/-- R72, R77 to R79: the word of a well-formed instruction; "An assembler writes them [the unused bits] as 0" (R73). -/
def encode : Instr → BusWord
  | .init => .host (packWord 0 0 0)
  | .clear => .host (packWord 1 0 0)
  | .setcur row column => .host (packWord 2 row column)
  | .putc c => .host (packWord 3 0 c)
  | .puts len => .host (packWord 4 1 (BitVec.ofNat 8 len))
  | .putsNull => .host (packWord 4 0 0)
  | .wrb byte mode => .host (packWord 5 ((BitVec.ofBool mode.toBit).zeroExtend 8) byte)
  | .reserved6 => .host (packWord 6 0 0)
  | .reserved7 => .host (packWord 7 0 0)
  | .lcdClear => .lcdByte .low cmdClear
  | .lcdEntry => .lcdByte .low cmdEntry
  | .lcdDispOff => .lcdByte .low cmdDispOff
  | .lcdDispOn => .lcdByte .low cmdDispOn
  | .lcdFuncset => .lcdByte .low cmdFuncset
  | .lcdSetDdram a => .lcdByte .low ((1 : BitVec 1) ++ a)
  | .lcdData d => .lcdByte .high d
  | .lcdNibFs8 => .lcdNibble nibFs8
  | .lcdNibFs4 => .lcdNibble nibFs4

/-- R73: which bits of a command word its operation uses. -/
def usedMask (op : BitVec 3) (aLow : Bool) : CmdWord :=
  match op.toNat with
  | 2 => 0x7FFFF
  | 3 => 0x700FF
  | 4 => if aLow then 0x701FF else 0x70100
  | 5 => 0x701FF
  | _ => 0x70000

/-- A command word with the bits its operation ignores written as 0 (R73). -/
def canonicalWord (w : CmdWord) : CmdWord := w &&& usedMask (opField w) ((aField w).getLsbD 0)

/-- The table's own numbering: up to 8 bits an LCD-side row, up to 24 a command word; further bytes are a string's payload and no part of the word. An LCD row of the table carries no RS level, so a byte is read as a command byte first, then as a raw nibble, then as data (log 12). Bits above bit 18 of a command word exist in no word (log 24). -/
def decodeTableWord (nbits w : Nat) : Option Instr :=
  if nbits ≤ 8 then
    if 2 ^ 8 ≤ w then none
    else
      match decode (.lcdByte .low (BitVec.ofNat 8 w)) with
      | .ok i => some i
      | .error _ =>
        if 2 ^ 4 ≤ w then some (.lcdData (BitVec.ofNat 8 w))
        else
          match decode (.lcdNibble (BitVec.ofNat 4 w)) with
          | .ok i => some i
          | .error _ => some (.lcdData (BitVec.ofNat 8 w))
  else if 2 ^ 19 ≤ w % 2 ^ 24 then none
  else (decode (.host (BitVec.ofNat 19 (w % 2 ^ 24)))).toOption

/-! The textual form (R83). -/

/-- R83: a line of the assembler: an operation and, for PUTS, its text. -/
inductive AsmLine where
  | init
  | clear
  | setcur (row column : Byte)
  | putc (c : Byte)
  | puts (text : List Byte)
  | putsNull
  | wrb (byte : Byte) (mode : RsMode)
  deriving DecidableEq, Repr

/-- R83: the instruction of a line. -/
def AsmLine.instr : AsmLine → Instr
  | .init => .init
  | .clear => .clear
  | .setcur row column => .setcur row column
  | .putc c => .putc c
  | .puts text => .puts text.length
  | .putsNull => .putsNull
  | .wrb byte mode => .wrb byte mode

/-- R83: the payload bytes that follow the word of a line. -/
def AsmLine.payload : AsmLine → List Byte
  | .puts text => text
  | .init | .clear | .setcur _ _ | .putc _ | .putsNull | .wrb _ _ => []

end Sys2Proof
end

