-- ==== Sys2Proof/Machine/State.lean ====
section
/-! DEFINITION. Everything the spec gives the engine as state (10_state.md R20), the inputs its surroundings give it, and its observable trace, as plain data. -/

namespace Sys2Proof.Machine

/-- R21: the six output latches. -/
structure Latches where
  rs : Level
  en : Level
  d4 : Level
  d5 : Level
  d6 : Level
  d7 : Level
  deriving DecidableEq, Repr

/-- R81, R200: the status of the last completed operation. -/
inductive ErrCode where
  | ok
  | invalidArgument
  | hardwareUnavailable
  deriving DecidableEq, Repr

/-- R25: the status register. -/
structure Status where
  busy : Bool
  err : ErrCode
  deriving DecidableEq, Repr

/-- R11: the events of the full trace. -/
inductive Event where
  /-- `OUT[L] <- v`. -/
  | drive (l : Line) (v : Level)
  /-- `GpioGet(L)` read the level v. -/
  | sample (l : Line) (v : Level)
  /-- `Wait(k)` with its minimum in microseconds. -/
  | wait (k : WaitClass) (minUs : Nat)
  /-- `Done(status)`: also the `rsp_valid` pulse of R82. -/
  | done (status : ErrCode)
  /-- The reset input was asserted: every latch went to its reset value (R232, log 6). -/
  | reset
  deriving DecidableEq, Repr

/-- The state. `out`, `status`, `cw`, `byte`, `mode`, `addr`, `cnt`, `upc` are the engine's (R20). `offers`, `payload`, `rstAfter`, `rsIn`, `failIn` are inputs from outside (R82, R22, R202, R230); `draws` counts free values; `trace` is the observable of R11. -/
structure State where
  out : Latches
  status : Status
  cw : CmdWord
  byte : Byte
  mode : RsMode
  addr : Byte
  cnt : Nat
  upc : Nat
  offers : List CmdWord
  payload : List Byte
  rstAfter : Option Nat
  rsIn : List Level
  failIn : List Bool
  draws : Nat
  trace : List Event
  deriving DecidableEq, Repr

/-- Why the machine stops with a fault. -/
inductive Fault where
  /-- Raised by a step of a busy engine whose UPC names no micro-step of the running operation. R24 excludes it ("UPC never exceeds the length of the running operation"); no run reaches it. Safe: the machine stops (log 18). -/
  | lostMicroStep
  deriving DecidableEq, Repr

/-- Why an instruction is refused. -/
inductive Refusal where
  /-- Raised only by an arm of exec whose instruction has no meaning yet; there is none. Safe. -/
  | notModelled (mnemonic : String)
  deriving DecidableEq, Repr

/-- R31: all six output latches Low. -/
def Latches.reset : Latches :=
  { rs := .low, en := .low, d4 := .low, d5 := .low, d6 := .low, d7 := .low }

/-- R31: idle, status OK. -/
def Status.reset : Status := { busy := false, err := .ok }

/-- The machine right after reset (R31, R230). The datapath latches are unspecified there; the model names 0 (log 4). The inputs are empty (log 9, log 13). -/
def State.reset : State where
  out := Latches.reset
  status := Status.reset
  cw := 0
  byte := 0
  mode := .command
  addr := 0
  cnt := 0
  upc := 0
  offers := []
  payload := []
  rstAfter := none
  rsIn := []
  failIn := []
  draws := 0
  trace := []

end Sys2Proof.Machine
end

