-- ==== Sys2Proof/Machine/Flags.lean ====
section
/-! DEFINITION. STATUS, the engine's only flags (10_state.md R25, R27: there are no condition codes), and how an operation ends (00_scope.md R10 `Done`, 60_exceptions.md R205 `raise`). -/

namespace Sys2Proof.Machine

/-- R81: the numbers of the status codes. -/
def ErrCode.code : ErrCode → BitVec 2
  | .ok => 0
  | .invalidArgument => 1
  | .hardwareUnavailable => 2

/-- R25: STATUS read whole: `STATUS[0]` = BUSY, `STATUS[2:1]` = ERR. -/
def Status.word (s : Status) : BitVec 3 := s.err.code ++ BitVec.ofBool s.busy

/-- R11: one event more in the full trace. -/
def emit (e : Event) (s : State) : State := { s with trace := s.trace ++ [e] }

/-- R10, R25: `Done(e)`: "BUSY <- 0 and ERR <- s"; the sequencer is idle (R24). -/
def finish (e : ErrCode) (s : State) : State :=
  emit (.done e) { s with status := { busy := false, err := e }, upc := 0 }

/-- R205: what `raise X` does: STATUS.ERR gets the code, BUSY and UPC go to 0, the response pulses; nothing is saved, no latch is touched. There is no return from it (R206). -/
def raise (e : ErrCode) (s : State) : State := finish e s

/-- R150: BUSY and UPC when an operation is accepted. -/
def begin (s : State) : State := { s with status := { s.status with busy := true }, upc := 1 }

end Sys2Proof.Machine
end

