-- ==== Sys2Proof/Machine/Operands.lean ====
section
/-! DEFINITION. Operand forms: the six latches by line (10_state.md R21), the address mapper (43_address_mapper.md), the sources of a byte write. -/

namespace Sys2Proof.Machine

/-- R10: `OUT[L]`. -/
def Latches.get (l : Latches) : Line → Level
  | .rs => l.rs
  | .en => l.en
  | .d4 => l.d4
  | .d5 => l.d5
  | .d6 => l.d6
  | .d7 => l.d7

/-- R10: the latch of one line written; no latch aliases another (R21). -/
def Latches.set (l : Latches) : Line → Level → Latches
  | .rs, v => { l with rs := v }
  | .en, v => { l with en := v }
  | .d4, v => { l with d4 := v }
  | .d5, v => { l with d5 := v }
  | .d6, v => { l with d6 := v }
  | .d7, v => { l with d7 := v }

/-- R21, D32: the 6-bit register OUT, bit 0 RS to bit 5 D7. -/
def Latches.word (l : Latches) : BitVec 6 :=
  BitVec.ofBool l.d7.toBit ++ BitVec.ofBool l.d6.toBit ++ BitVec.ofBool l.d5.toBit
    ++ BitVec.ofBool l.d4.toBit ++ BitVec.ofBool l.en.toBit ++ BitVec.ofBool l.rs.toBit

/-- R52: the nibble on D7 to D4. -/
def Latches.nibble (l : Latches) : Nibble :=
  BitVec.ofBool l.d7.toBit ++ BitVec.ofBool l.d6.toBit ++ BitVec.ofBool l.d5.toBit
    ++ BitVec.ofBool l.d4.toBit

/-- R8, R9: bit i of a byte as a level. -/
def bitLevel {n : Nat} (v : BitVec n) (i : Nat) : Level := Level.ofBit (v.getLsbD i)

/-- R8: the high nibble of a byte. -/
def highNibble (b : Byte) : Nibble := b.extractLsb' 4 4

/-- R8: the low nibble of a byte. -/
def lowNibble (b : Byte) : Nibble := b.extractLsb' 0 4

/-- R6 `N_ROWS`, "rows the address mapper distinguishes": rows are numbered from 1 (R180, log 25). -/
def distinguished (P : Params) (row : Byte) : Bool := decide (1 ≤ row.toNat ∧ row.toNat ≤ P.nRows)

/-- R180: MAP, unsigned and modulo 256 (R181); with the spec's `N_ROWS` = 2 a row other than 1 or 2 gives 0 (R182); no bounds check (R183). What another `N_ROWS` means is the model's choice (log 25). -/
def map (P : Params) (row column : Byte) : Byte :=
  if distinguished P row = false then 0
  else if row = 1 then column - 1
  else if row = 2 then P.row2Base + (column - 1)
  else 0

/-- R184: the row is refused, only with `STRICT_ROW`: with `N_ROWS` = 2, a row other than 1 or 2. -/
def rowRefused (P : Params) (row : Byte) : Bool := P.strictRow && !distinguished P row

/-- R185: "a bitwise OR on 8 bits". -/
def setDdramByte (P : Params) (addr : Byte) : Byte := P.cmdSetDdram ||| addr

/-- Where WriteByte's byte operand comes from (R104, R131, R151, R152). -/
inductive ByteSrc where
  /-- A byte the operation gives. -/
  | lit (b : Byte)
  /-- A command byte of R6. -/
  | cmd (c : CmdName)
  /-- `CMD_SET_DDRAM | ADDR`, from the address latch. -/
  | ddram
  deriving DecidableEq, Repr

/-- The value of a byte operand. -/
def ByteSrc.value (P : Params) (s : State) : ByteSrc → Byte
  | .lit b => b
  | .cmd c => P.cmd c
  | .ddram => setDdramByte P s.addr

/-- Where DriveNibble's operand comes from (R100, R103, R104, R131). -/
inductive NibSrc where
  /-- A nibble given outright. -/
  | lit (n : Nibble)
  /-- A raw nibble of R6. -/
  | named (n : NibName)
  /-- `BYTE[7:4]`. -/
  | byteHigh
  /-- `BYTE[3:0]`. -/
  | byteLow
  deriving DecidableEq, Repr

/-- The value of a nibble operand. -/
def NibSrc.value (P : Params) (s : State) : NibSrc → Nibble
  | .lit n => n
  | .named n => P.nib n
  | .byteHigh => highNibble s.byte
  | .byteLow => lowNibble s.byte

/-- R9: the level the settle delay's class is chosen by selects the long class or the short one (R102). -/
def settleClass (P : Params) (r : Level) : WaitClass := if r = P.longLevel then .long else .short

end Sys2Proof.Machine
end

