-- ==== Sys2Proof/Machine/Ops.lean ====
section
/-! DEFINITION. The named operations: the primitives of 00_scope.md R10 over the collaborators, acceptance (42_dispatcher.md R150), reset (70_reset_and_hazards.md R230). Raising a condition stands in Flags. -/

namespace Sys2Proof.Machine

/-- The parameters the machine runs with (R6, log 10). -/
def params : Params := Config.defaults

/-- What came of a piece of an operation: it goes on with a value, or the operation has been halted (it ended with a condition, it waits for a payload byte, or it was reset). -/
inductive Run (α : Type) where
  | going (a : α)
  | halted (s : State)
  deriving DecidableEq, Repr

/-- Go on only if not halted. -/
def Run.bind {α β : Type} (r : Run α) (f : α → Run β) : Run β :=
  match r with
  | .going a => f a
  | .halted s => .halted s

/-- A pure last touch. -/
def Run.map {α β : Type} (f : α → β) (r : Run α) : Run β :=
  match r with
  | .going a => .going (f a)
  | .halted s => .halted s

/-- The state either way. -/
def Run.state : Run State → State
  | .going s => s
  | .halted s => s

/-- R202: whether the next collaborator call fails, and the state after that is known. Never with `COLLAB_FAULTS = false`. -/
def collabOutcome (P : Params) (s : State) : Bool × State :=
  if P.collabFaults then
    match s.failIn with
    | b :: bs => (b, { s with failIn := bs })
    | [] => (Config.freeFailure s.draws, { s with draws := s.draws + 1 })
  else (false, s)

/-- R202: a primitive's effect `f`, or, if the collaborator fails, none of it: "the operation ends at once with `Done(HardwareUnavailable)`; the failing primitive has no effect on its latch". -/
def attempt {α : Type} (P : Params) (f : State → α) (s : State) : Run α :=
  if (collabOutcome P s).1 then .halted (raise .hardwareUnavailable (collabOutcome P s).2)
  else .going (f (collabOutcome P s).2)

/-- R10: `OUT[L] <- v`. -/
def driveLine (P : Params) (l : Line) (v : Level) (s : State) : Run State :=
  attempt P (fun t => emit (.drive l v) { t with out := t.out.set l v }) s

/-- R22: the level read back from RS: the latch with `RS_LOOPBACK`, otherwise an input. -/
def rsReadBack (P : Params) (s : State) : Level × State :=
  if P.rsLoopback then (s.out.rs, s)
  else
    match s.rsIn with
    | v :: vs => (v, { s with rsIn := vs })
    | [] => (Config.freeSample s.draws, { s with draws := s.draws + 1 })

/-- R10: `GpioGet(RS)`, with its event. -/
def gpioGetRs (P : Params) (s : State) : Run (Level × State) :=
  attempt P (fun t => ((rsReadBack P t).1, emit (.sample .rs (rsReadBack P t).1) (rsReadBack P t).2)) s

/-- R10: `Wait(k)`. -/
def waitFor (P : Params) (k : WaitClass) (s : State) : Run State :=
  attempt P (emit (.wait k (P.minUs k))) s

/-- R102: SettleDelay, the class chosen by the level read back from RS now. -/
def settleDelay (P : Params) (s : State) : Run State :=
  (gpioGetRs P s).bind fun r => waitFor P (settleClass P r.1) r.2

/-- R150: a word taken from the command channel. BUSY and UPC are set as the operation begins. -/
def accept (w : CmdWord) (rest : List CmdWord) (s : State) : State :=
  { s with cw := w, offers := rest }

/-- R230, R232: the reset input asserted: every latch to its reset value (R31), whatever ran is abandoned with no `Done`; what the surroundings hold stays (log 6). -/
def applyReset (s : State) : State :=
  emit .reset
    { s with
      out := State.reset.out, status := State.reset.status, cw := State.reset.cw,
      byte := State.reset.byte, mode := State.reset.mode, addr := State.reset.addr,
      cnt := State.reset.cnt, upc := State.reset.upc, rstAfter := none }

/-- A step in which the engine has nothing to do: only the reset input comes nearer (log 6). -/
def waiting (s : State) : State := { s with rstAfter := s.rstAfter.map (· - 1) }

end Sys2Proof.Machine
end

