-- ==== Sys2Proof/Machine/Transport.lean ====
section
/-! DEFINITION. The nibble transport (40_nibble_transport.md): its procedures as sequences of micro-steps (10_state.md R24), and what one micro-step does. -/

namespace Sys2Proof.Machine

/-- R24: the micro-steps, each one primitive action (a settle delay with its sample is one, R244), with the datapath latch writes that the pseudocode puts beside it (R23). -/
inductive Micro where
  /-- `OUT[L] <- v`. -/
  | drive (l : Line) (v : Level)
  /-- `Wait(k)`. -/
  | wait (k : WaitClass)
  /-- SettleDelay, R102. -/
  | settle
  /-- SettleDelay, then `CNT <- CNT - 1`: the end of a string byte, R154. -/
  | settleCount
  /-- `BYTE <- b ; MODE <- m`, then `OUT[RS] <- level(m)`: WriteByte step 1, R104. -/
  | startByte (src : ByteSrc) (m : RsMode)
  /-- The same with the next string byte, R154, R62. -/
  | startStringByte
  /-- `OUT[L] <- n[i]`: one line of DriveNibble(n), R100. -/
  | dataBit (l : Line) (src : NibSrc) (i : Nat)
  /-- `ADDR <- MAP(row, column)`, then `OUT[RS] <- Low`: R152. -/
  | openCursor (row column : Byte)
  /-- `OUT[RS] <- High`, then `CNT <- n`: R154. -/
  | openString (n : Nat)
  deriving DecidableEq, Repr

/-- The statements of the operations' pseudocode. -/
inductive Stmt where
  /-- `OUT[L] <- v`. -/
  | drive (l : Line) (v : Level)
  /-- `Wait(k)`. -/
  | wait (k : WaitClass)
  /-- `RawNibble(n)`, R103. -/
  | raw (src : NibSrc)
  /-- `WriteByte(b, m)`, R104. -/
  | write (src : ByteSrc) (m : RsMode)
  /-- The body of the PUTS loop, R154. -/
  | writeString
  /-- `ADDR <- MAP(row, column) ; OUT[RS] <- Low`, R152. -/
  | openCursor (row column : Byte)
  /-- `OUT[RS] <- High ; CNT <- n`, R154. -/
  | openString (n : Nat)
  deriving DecidableEq, Repr

/-- R100, R52: DriveNibble. -/
def driveNibble (src : NibSrc) : List Micro :=
  [.dataBit .d4 src 0, .dataBit .d5 src 1, .dataBit .d6 src 2, .dataBit .d7 src 3]

/-- R101: PulseEN. -/
def pulseEn : List Micro := [.drive .en .high, .wait .enHold, .drive .en .low]

/-- R104 steps 2 to 6, the byte already latched; `last` is the second settle delay. -/
def sendByte (last : Micro) : List Micro :=
  driveNibble .byteHigh ++ pulseEn ++ [.settle] ++ driveNibble .byteLow ++ pulseEn ++ [last]

/-- Every procedure call expanded in place (R24, R159). -/
def Stmt.expand : Stmt → List Micro
  | .drive l v => [.drive l v]
  | .wait k => [.wait k]
  | .raw src => driveNibble src ++ pulseEn
  | .write src m => .startByte src m :: sendByte .settle
  | .writeString => .startStringByte :: sendByte .settleCount
  | .openCursor row column => [.openCursor row column]
  | .openString n => [.openString n]

/-- What a micro-step does. A string byte that has not arrived halts the operation with nothing done (R62). -/
def act (P : Params) (m : Micro) (s : State) : Run State :=
  match m with
  | .drive l v => driveLine P l v s
  | .wait k => waitFor P k s
  | .settle => settleDelay P s
  | .settleCount => (settleDelay P s).map fun t => { t with cnt := t.cnt - 1 }
  | .startByte src m => driveLine P .rs m.level { s with byte := src.value P s, mode := m }
  | .startStringByte =>
    match s.payload with
    | [] => .halted s
    | b :: bs =>
      driveLine P .rs RsMode.character.level { s with payload := bs, byte := b, mode := .character }
  | .dataBit l src i => driveLine P l (bitLevel (src.value P s) i) s
  | .openCursor row column => driveLine P .rs .low { s with addr := map P row column }
  | .openString n => (driveLine P .rs .high s).map fun t => { t with cnt := n }

/-- R24: "advances `UPC` by 1". -/
def advance (s : State) : State := { s with upc := s.upc + 1 }

/-- One micro-step, or the reset that is due before it (R232). -/
def perform (P : Params) (m : Micro) (s : State) : Run State :=
  if s.rstAfter = some 0 then .halted (applyReset s)
  else (act P m (waiting s)).map advance

/-- Micro-steps in order, up to the first that halts (R59). -/
def runMicros (P : Params) : List Micro → State → Run State
  | [], s => .going s
  | m :: ms, s => (perform P m s).bind (runMicros P ms)

/-- The micro-steps of a piece of pseudocode. -/
def micros (p : List Stmt) : List Micro := p.flatMap Stmt.expand

/-- An operation accepted, run to its end and, if nothing halted it, ended with OK (R150, R10). -/
def operate (P : Params) (p : List Stmt) (s : State) : Host.Outcome State Fault Refusal :=
  match runMicros P (micros p) (begin s) with
  | .going t => .next (finish .ok t)
  | .halted t => .next t

/-- An operation that ends at decode with a condition (R201, R205): "before any line is driven". -/
def reject (e : ErrCode) (s : State) : Host.Outcome State Fault Refusal :=
  .next (raise e (begin s))

/-- A single statement carried out for the operation that runs: what the transport emits. -/
def transmit (P : Params) (p : Stmt) (s : State) : Host.Outcome State Fault Refusal :=
  .next (runMicros P p.expand s).state

end Sys2Proof.Machine
end

