-- ==== Sys2Proof/Machine/Controller.lean ====
section
/-! DEFINITION. The command and data dispatcher (42_dispatcher.md), the host's byte write (40_nibble_transport.md R104) and the reserved opcodes (60_exceptions.md R215). -/

namespace Sys2Proof.Machine

/-- R151: the pseudocode of CLEAR. -/
def clearProgram : List Stmt := [.write (.cmd .clear) .command]

/-- R152: the pseudocode of SETCUR once the row is not refused. -/
def setcurProgram (row column : Byte) : List Stmt :=
  [.openCursor row column, .write .ddram .command]

/-- R153: the pseudocode of PUTC. -/
def putcProgram (c : Byte) : List Stmt :=
  [.drive .rs .high, .write (.lit c) .character, .drive .rs .low]

/-- R154, R156: the pseudocode of PUTS with its loop unrolled. -/
def putsProgram (len : Nat) : List Stmt :=
  .openString len :: (List.replicate len .writeString ++ [.drive .rs .low])

/-- R104: the pseudocode of WRB. -/
def wrbProgram (b : Byte) (m : RsMode) : List Stmt := [.write (.lit b) m]

/-- CLEAR under any parameters. -/
def runClear (P : Params) (s : State) : Host.Outcome State Fault Refusal := operate P clearProgram s

/-- SETCUR under any parameters; InvalidArgument only as R184 says. -/
def runSetcur (P : Params) (row column : Byte) (s : State) : Host.Outcome State Fault Refusal :=
  if rowRefused P row then reject .invalidArgument s else operate P (setcurProgram row column) s

/-- PUTC under any parameters. -/
def runPutc (P : Params) (c : Byte) (s : State) : Host.Outcome State Fault Refusal :=
  operate P (putcProgram c) s

/-- PUTS under any parameters. -/
def runPuts (P : Params) (len : Nat) (s : State) : Host.Outcome State Fault Refusal :=
  operate P (putsProgram len) s

/-- WRB under any parameters. -/
def runWrb (P : Params) (b : Byte) (m : RsMode) (s : State) : Host.Outcome State Fault Refusal :=
  operate P (wrbProgram b m) s

/-- CLEAR, R151. -/
def execClear (s : State) : Host.Outcome State Fault Refusal := runClear params s

/-- SETCUR row, column, R152. -/
def execSetcur (row column : Byte) (s : State) : Host.Outcome State Fault Refusal :=
  runSetcur params row column s

/-- PUTC c, R153. -/
def execPutc (c : Byte) (s : State) : Host.Outcome State Fault Refusal := runPutc params c s

/-- PUTS, R154. -/
def execPuts (len : Nat) (s : State) : Host.Outcome State Fault Refusal := runPuts params len s

/-- PUTS.NULL, R155: InvalidArgument "before anything else: no Drive, no Wait, no Sample". -/
def execPutsNull (s : State) : Host.Outcome State Fault Refusal := reject .invalidArgument s

/-- WRB byte, mode, R104. -/
def execWrb (b : Byte) (m : RsMode) (s : State) : Host.Outcome State Fault Refusal :=
  runWrb params b m s

/-- OP = 6, R215. -/
def execReserved6 (s : State) : Host.Outcome State Fault Refusal := reject .invalidArgument s

/-- OP = 7, R215. -/
def execReserved7 (s : State) : Host.Outcome State Fault Refusal := reject .invalidArgument s

end Sys2Proof.Machine
end

