-- ==== Sys2Proof/Machine/Init.lean ====
section
/-! DEFINITION. The initialisation sequencer (41_init_sequencer.md). -/

namespace Sys2Proof.Machine

/-- R131, R132: the pseudocode of INIT. -/
def initProgram : List Stmt :=
  [.drive .rs .low,
    .wait .pwr,
    .raw (.named .fs8),
    .wait .gap1,
    .raw (.named .fs8),
    .wait .gap2,
    .raw (.named .fs8),
    .wait .gap3,
    .raw (.named .fs4),
    .wait .fourBit,
    .write (.cmd .funcset) .command,
    .write (.cmd .dispOff) .command,
    .write (.cmd .clear) .command,
    .write (.cmd .entry) .command,
    .write (.cmd .dispOn) .command]

/-- INIT under any parameters. -/
def runInit (P : Params) (s : State) : Host.Outcome State Fault Refusal := operate P initProgram s

/-- INIT, R131. -/
def execInit (s : State) : Host.Outcome State Fault Refusal := runInit params s

end Sys2Proof.Machine
end

