-- ==== Sys2Proof/Machine/Lcd.lean ====
section
/-! DEFINITION. The rows of what the engine emits toward the LCD (30_encoding.md R77 to R79): each means its emission by the nibble transport, inside the operation that runs (log 12). The bytes and nibbles are those the table's rows spell (Decode). -/

namespace Sys2Proof.Machine

/-- LCD.CLEAR: WriteByte(0x01, Command), under any parameters. -/
def runLcdClear (P : Params) (s : State) : Host.Outcome State Fault Refusal :=
  transmit P (.write (.lit cmdClear) .command) s

/-- LCD.ENTRY: WriteByte(0x06, Command), under any parameters. -/
def runLcdEntry (P : Params) (s : State) : Host.Outcome State Fault Refusal :=
  transmit P (.write (.lit cmdEntry) .command) s

/-- LCD.DISP_OFF: WriteByte(0x08, Command), under any parameters. -/
def runLcdDispOff (P : Params) (s : State) : Host.Outcome State Fault Refusal :=
  transmit P (.write (.lit cmdDispOff) .command) s

/-- LCD.DISP_ON: WriteByte(0x0C, Command), under any parameters. -/
def runLcdDispOn (P : Params) (s : State) : Host.Outcome State Fault Refusal :=
  transmit P (.write (.lit cmdDispOn) .command) s

/-- LCD.FUNCSET: WriteByte(0x28, Command), under any parameters. -/
def runLcdFuncset (P : Params) (s : State) : Host.Outcome State Fault Refusal :=
  transmit P (.write (.lit cmdFuncset) .command) s

/-- LCD.SET_DDRAM: WriteByte(1aaaaaaa, Command), under any parameters. -/
def runLcdSetDdram (P : Params) (a : BitVec 7) (s : State) : Host.Outcome State Fault Refusal :=
  transmit P (.write (.lit ((1 : BitVec 1) ++ a)) .command) s

/-- LCD.DATA: WriteByte(d, Character), every value unchanged (R78), under any parameters. -/
def runLcdData (P : Params) (d : Byte) (s : State) : Host.Outcome State Fault Refusal :=
  transmit P (.write (.lit d) .character) s

/-- LCD.NIB_FS8: RawNibble(0b0011); RS is not written (R103), under any parameters. -/
def runLcdNibFs8 (P : Params) (s : State) : Host.Outcome State Fault Refusal :=
  transmit P (.raw (.lit nibFs8)) s

/-- LCD.NIB_FS4: RawNibble(0b0010); RS is not written (R103), under any parameters. -/
def runLcdNibFs4 (P : Params) (s : State) : Host.Outcome State Fault Refusal :=
  transmit P (.raw (.lit nibFs4)) s

/-- LCD.CLEAR. -/
def execLcdClear (s : State) : Host.Outcome State Fault Refusal := runLcdClear params s

/-- LCD.ENTRY. -/
def execLcdEntry (s : State) : Host.Outcome State Fault Refusal := runLcdEntry params s

/-- LCD.DISP_OFF. -/
def execLcdDispOff (s : State) : Host.Outcome State Fault Refusal := runLcdDispOff params s

/-- LCD.DISP_ON. -/
def execLcdDispOn (s : State) : Host.Outcome State Fault Refusal := runLcdDispOn params s

/-- LCD.FUNCSET. -/
def execLcdFuncset (s : State) : Host.Outcome State Fault Refusal := runLcdFuncset params s

/-- LCD.SET_DDRAM. -/
def execLcdSetDdram (a : BitVec 7) (s : State) : Host.Outcome State Fault Refusal := runLcdSetDdram params a s

/-- LCD.DATA. -/
def execLcdData (d : Byte) (s : State) : Host.Outcome State Fault Refusal := runLcdData params d s

/-- LCD.NIB_FS8. -/
def execLcdNibFs8 (s : State) : Host.Outcome State Fault Refusal := runLcdNibFs8 params s

/-- LCD.NIB_FS4. -/
def execLcdNibFs4 (s : State) : Host.Outcome State Fault Refusal := runLcdNibFs4 params s

end Sys2Proof.Machine
end

