-- ==== Sys2Proof/Machine/Dispatch.lean ====
section
/-! DEFINITION. The dispatch: one arm per instruction. -/

namespace Sys2Proof.Machine

/-- The effect of an instruction. -/
def exec (i : Instr) (s : State) : Host.Outcome State Fault Refusal :=
  match i with
  | .init => Sys2Proof.Machine.execInit s
  | .clear => Sys2Proof.Machine.execClear s
  | .setcur row column => Sys2Proof.Machine.execSetcur row column s
  | .putc c => Sys2Proof.Machine.execPutc c s
  | .puts len => Sys2Proof.Machine.execPuts len s
  | .putsNull => Sys2Proof.Machine.execPutsNull s
  | .wrb b m => Sys2Proof.Machine.execWrb b m s
  | .reserved6 => Sys2Proof.Machine.execReserved6 s
  | .reserved7 => Sys2Proof.Machine.execReserved7 s
  | .lcdClear => Sys2Proof.Machine.execLcdClear s
  | .lcdEntry => Sys2Proof.Machine.execLcdEntry s
  | .lcdDispOff => Sys2Proof.Machine.execLcdDispOff s
  | .lcdDispOn => Sys2Proof.Machine.execLcdDispOn s
  | .lcdFuncset => Sys2Proof.Machine.execLcdFuncset s
  | .lcdSetDdram a => Sys2Proof.Machine.execLcdSetDdram a s
  | .lcdData d => Sys2Proof.Machine.execLcdData d s
  | .lcdNibFs8 => Sys2Proof.Machine.execLcdNibFs8 s
  | .lcdNibFs4 => Sys2Proof.Machine.execLcdNibFs4 s

end Sys2Proof.Machine
end

