-- ==== Sys2Proof/Machine/Sequencer.lean ====
section
/-! DEFINITION. The sequencer (10_state.md R24): from CW, UPC and CNT to the micro-step that is next, and one micro-step of a busy engine. -/

namespace Sys2Proof.Machine

/-- The pseudocode of a host operation (R131, R151 to R156, R104); nothing for the ones that end at decode and for the emitted rows. -/
def program : Instr → List Stmt
  | .init => initProgram
  | .clear => clearProgram
  | .setcur row column => setcurProgram row column
  | .putc c => putcProgram c
  | .puts len => putsProgram len
  | .wrb b m => wrbProgram b m
  | .putsNull | .reserved6 | .reserved7 => []
  | .lcdClear | .lcdEntry | .lcdDispOff | .lcdDispOn | .lcdFuncset => []
  | .lcdSetDdram _ | .lcdData _ | .lcdNibFs8 | .lcdNibFs4 => []

/-- R244: the number of micro-steps of each operation, and of each emission. -/
def microCount : Instr → Nat
  | .init => 119
  | .clear => 17
  | .setcur _ _ => 18
  | .putc _ => 19
  | .puts len => 2 + 17 * len
  | .wrb _ _ => 17
  | .putsNull | .reserved6 | .reserved7 => 0
  | .lcdClear | .lcdEntry | .lcdDispOff | .lcdDispOn | .lcdFuncset => 17
  | .lcdSetDdram _ | .lcdData _ => 17
  | .lcdNibFs8 | .lcdNibFs4 => 7

/-- The statement that holds the k-th micro-step (from 0) of a straight sequence, and the place inside it. -/
def locate : List Stmt → Nat → Option (Stmt × Nat)
  | [], _ => none
  | p :: ps, k => if k < p.expand.length then some (p, k) else locate ps (k - p.expand.length)

/-- R154, R159: the loop of PUTS, tested on CNT where a string byte would start. `k` counts micro-steps from the first one of the loop. -/
def locateInLoop (cnt k : Nat) : Option (Stmt × Nat) :=
  if k % 17 = 0 ∧ cnt = 0 then some (.drive .rs .low, 0) else some (.writeString, k % 17)

/-- R24: the statement UPC points into; UPC counts from 1, and 0 is idle. -/
def locateUpc (i : Instr) (upc cnt : Nat) : Option (Stmt × Nat) :=
  match i, upc with
  | _, 0 => none
  | .puts len, k + 1 => if k = 0 then some (.openString len, 0) else locateInLoop cnt (k - 1)
  | i, k + 1 => locate (program i) k

/-- R23: the operation that runs, read from `CW`. -/
def State.running (s : State) : Instr := decodeWord s.cw

/-- The statement a busy engine is in, and the place inside it. -/
def State.position (s : State) : Option (Stmt × Nat) := locateUpc s.running s.upc s.cnt

/-- The micro-step that is next. -/
def State.currentMicro (s : State) : Option Micro := s.position.bind fun p => p.1.expand[p.2]?

/-- R24: "the last micro-step of an operation sets `UPC <- 0`", and the operation is done (R10). -/
def closeIfOver (s : State) : State :=
  if s.status.busy && microCount s.running < s.upc then finish .ok s else s

/-- One micro-step of the running operation. -/
def microStep (P : Params) (s : State) : Host.Outcome State Fault Refusal :=
  match s.currentMicro with
  | none => .fault .lostMicroStep
  | some m =>
    match perform P m s with
    | .going t => .next (closeIfOver t)
    | .halted t => .next t

/-- What a statement puts on the LCD bus (R76, R79). -/
def Stmt.busWord (P : Params) (s : State) : Stmt → Option BusWord
  | .raw src => some (.lcdNibble (src.value P s))
  | .write src m => some (.lcdByte m.level (src.value P s))
  | .drive _ _ | .wait _ | .writeString | .openCursor _ _ | .openString _ => none

/-- The row of the table that the transport is about to emit, if UPC stands at the start of a byte write or a raw nibble that is a row. -/
def State.nextEmission (P : Params) (s : State) : Option Instr :=
  match s.position with
  | some (p, 0) => (p.busWord P s).bind fun w => (decode w).toOption
  | _ => none

/-- `n` micro-steps of a busy engine, stopping where it stops. -/
def microSteps (P : Params) : Nat → State → Host.Outcome State Fault Refusal
  | 0, s => .next s
  | n + 1, s =>
    match microStep P s with
    | .next t => if t.status.busy then microSteps P n t else .next t
    | .fault r => .fault r
    | .refused r => .refused r

end Sys2Proof.Machine
end

