-- ==== Sys2Proof/Machine/Execute.lean ====
section
/-! DEFINITION. The instructions and the step with the parameters as arguments (10_state.md R26: "A model takes them as arguments of the step function"). Dispatch and Step are this instance's (log 10). -/

namespace Sys2Proof.Machine

/-- The effect of an instruction under any parameters. -/
def execWith (P : Params) (i : Instr) (s : State) : Host.Outcome State Fault Refusal :=
  match i with
  | .init => runInit P s
  | .clear => runClear P s
  | .setcur row column => runSetcur P row column s
  | .putc c => runPutc P c s
  | .puts len => runPuts P len s
  | .putsNull => execPutsNull s
  | .wrb b m => runWrb P b m s
  | .reserved6 => execReserved6 s
  | .reserved7 => execReserved7 s
  | .lcdClear => runLcdClear P s
  | .lcdEntry => runLcdEntry P s
  | .lcdDispOff => runLcdDispOff P s
  | .lcdDispOn => runLcdDispOn P s
  | .lcdFuncset => runLcdFuncset P s
  | .lcdSetDdram a => runLcdSetDdram P a s
  | .lcdData d => runLcdData P d s
  | .lcdNibFs8 => runLcdNibFs8 P s
  | .lcdNibFs4 => runLcdNibFs4 P s

/-- What a step adds after an emission: the end of an operation whose last micro-step it was (R24). -/
def closeOutcome : Host.Outcome State Fault Refusal → Host.Outcome State Fault Refusal
  | .next s => .next (closeIfOver s)
  | .fault r => .fault r
  | .refused r => .refused r

/-- A step of a busy engine: no word is accepted (R150). `run` is the effect of an instruction. -/
def busyStep (P : Params) (run : Instr → State → Host.Outcome State Fault Refusal) (s : State) :
    Host.Outcome State Fault Refusal :=
  match s.nextEmission P with
  | some i => closeOutcome (run i s)
  | none => microStep P s

/-- A step of an idle engine: the next word is accepted and its operation runs, or the engine waits (R150, R230). -/
def idleStep (run : Instr → State → Host.Outcome State Fault Refusal) (s : State) :
    Host.Outcome State Fault Refusal :=
  match s.offers with
  | [] => .next (waiting s)
  | w :: ws => run (decodeWord w) (accept w ws s)

/-- One step: the reset that is due, or what a busy or an idle engine does (log 1). -/
def stepBy (P : Params) (run : Instr → State → Host.Outcome State Fault Refusal) (s : State) :
    Host.Outcome State Fault Refusal :=
  if s.rstAfter = some 0 then .next (applyReset s)
  else if s.status.busy then busyStep P run s
  else idleStep run s

/-- R26: one step under any parameters. -/
def stepWith (P : Params) (s : State) : Host.Outcome State Fault Refusal := stepBy P (execWith P) s

end Sys2Proof.Machine
end

