-- ==== Sys2Proof/Machine/Fetch.lean ====
section
/-! DEFINITION. What stands where the step takes its next instruction from, for Step (log 12, log 13). -/

namespace Sys2Proof.Machine

/-- The string bytes of a PUTS laid out above its word, as many as its LEN says (R75). -/
def payloadOf (w : Nat) : Instr → List Byte
  | .puts len => (List.range len).map fun k => BitVec.ofNat 8 (w >>> (24 + 8 * k))
  | _ => []

/-- A word the host offers to an idle engine, with its payload (R62, R82). -/
def offerWord (s : State) (w : Nat) : State :=
  { s with
    status := { s.status with busy := false }
    upc := 0
    rstAfter := none
    offers := BitVec.ofNat 19 (w % 2 ^ 24) :: s.offers
    payload := payloadOf w (decodeWord (BitVec.ofNat 19 (w % 2 ^ 24))) ++ s.payload }

/-- A busy engine that runs the operation of `i` and stands before its micro-step `upc`. -/
def midOperation (s : State) (i : Instr) (upc : Nat) : State :=
  match encode i with
  | .host w =>
    { s with cw := w, status := { s.status with busy := true }, upc := upc, rstAfter := none }
  | .lcdByte _ _ | .lcdNibble _ => s

/-- A busy engine about to emit a row: inside the operation that emits it, at the micro-step where R131, R151 to R153 place it. -/
def aboutToEmit (s : State) : Instr → State
  | .lcdNibFs8 => midOperation s .init 3
  | .lcdNibFs4 => midOperation s .init 27
  | .lcdFuncset => midOperation s .init 35
  | .lcdDispOff => midOperation s .init 52
  | .lcdClear => midOperation s .clear 1
  | .lcdEntry => midOperation s .init 86
  | .lcdDispOn => midOperation s .init 103
  | .lcdSetDdram a =>
    midOperation { s with addr := a.zeroExtend 8 } (.setcur 1 (a.zeroExtend 8 + 1)) 2
  | .lcdData d => midOperation s (.putc d) 2
  | .init | .clear | .setcur _ _ | .putc _ | .puts _ | .putsNull | .wrb _ _ => s
  | .reserved6 | .reserved7 => s

end Sys2Proof.Machine
end

