-- ==== Sys2Proof/Machine/Step.lean ====
section
/-! DEFINITION. One step of this instance (log 1, log 10), and the state whose next step runs a given word. -/

namespace Sys2Proof.Machine

/-- One step of this instance; `step` is `stepWith params`, with its instructions read from Dispatch (step_eq). -/
def step (s : State) : Host.Outcome State Fault Refusal := stepBy params exec s

/-- The state with a row's instruction where the next step takes it from (log 12, log 13). -/
def State.withFetchWord (s : State) (nbits w : Nat) : State :=
  if nbits ≤ 8 then
    match decodeTableWord nbits w with
    | some i => aboutToEmit s i
    | none => s
  else offerWord s w

end Sys2Proof.Machine
end

