-- ==== Sys2Proof/Machine/HostInterface.lean ====
section
/-! DEFINITION. The signals at the engine's boundary (30_encoding.md R82, 60_exceptions.md R210, R211) as views of the state. -/

namespace Sys2Proof.Machine

/-- R82: `cmd_valid`. -/
def State.cmdValid (s : State) : Bool := !s.offers.isEmpty

/-- R82: `cmd_ready`, "equal to `not BUSY`". -/
def State.cmdReady (s : State) : Bool := !s.status.busy

/-- R82: `cmd_word`. -/
def State.cmdWord (s : State) : Option CmdWord := s.offers.head?

/-- R82: `str_valid`. -/
def State.strValid (s : State) : Bool := !s.payload.isEmpty

/-- R82, R62: `str_ready`: the engine is at the start of a string byte. -/
def State.strReady (s : State) : Bool :=
  s.status.busy && (s.currentMicro == some .startStringByte)

/-- R82: `busy`. -/
def State.busyPin (s : State) : Bool := s.status.busy

/-- R82: the status codes of the response pulses in a trace, in order. -/
def responses : List Event → List (BitVec 2)
  | [] => []
  | .done e :: es => e.code :: responses es
  | .drive _ _ :: es | .sample _ _ :: es | .wait _ _ :: es | .reset :: es => responses es

/-- R21, R82: the level of the pin of a line. -/
def State.pin (s : State) (l : Line) : Level := s.out.get l

/-- R211: the logical line at a physical identifier. -/
def lineAt (a : LineAssignment) (p : Nat) : Option Line :=
  [Line.rs, .en, .d4, .d5, .d6, .d7].find? fun l => a.id l == p

/-- R211: the level on a physical line that the engine owns. -/
def State.pinAt (a : LineAssignment) (s : State) (p : Nat) : Option Level :=
  (lineAt a p).map s.pin

/-- R210: the two calls of the Delay capability. -/
inductive DelayCall where
  | sleepExact (us : Nat)
  | sleepAtLeast (minUs maxUs : Nat)
  deriving DecidableEq, Repr

/-- R210, D11: the call each wait makes, "the range form of the Delay capability with open upper hints" for all of INIT's (R131, log 5); the hints are no maxima (R12). -/
def delayCall (P : Params) : WaitClass → DelayCall
  | .enHold => .sleepExact P.tEnHoldUs
  | .short => .sleepAtLeast P.tShortMinUs P.tShortMaxUs
  | .long => .sleepAtLeast P.tLongMinUs P.tLongMaxUs
  | .pwr => .sleepAtLeast P.tPwrMinUs P.tPwrMaxUs
  | .gap1 => .sleepAtLeast P.tGap1MinUs P.tGap1MaxUs
  | .gap2 => .sleepAtLeast P.tGap2MinUs P.tGap2MaxUs
  | .gap3 => .sleepAtLeast P.tGap3MinUs P.tGap3MaxUs
  | .fourBit => .sleepAtLeast P.t4BitMinUs P.t4BitMaxUs

/-- R210: "a wait of min microseconds is at least `ceil(min x CLK_HZ / 1000000)` cycles" where a counter on `clk` makes the delay. -/
def waitCycles (P : Params) (k : WaitClass) : Nat := (P.minUs k * P.clkHz + 999999) / 1000000

end Sys2Proof.Machine
end

