-- ==== Sys2Proof/Machine/Observers.lean ====
section
/-! DEFINITION. What the outside sees of a trace (00_scope.md R11, R12; 40_nibble_transport.md R108): the waveform, the nibbles the controller takes, the times. The engine has no such unit (60_exceptions.md R213). -/

namespace Sys2Proof.Machine

/-- The latches after an event. -/
def Latches.after (l : Latches) : Event → Latches
  | .drive n v => l.set n v
  | .reset => Latches.reset
  | .sample _ _ | .wait _ _ | .done _ => l

/-- R11: whether an event stays in the waveform: R11 removes the samples and the drives that change nothing, and no other event. That the closing `Done` stays is the model's choice (DESIGN CHOICE, log 26): R155, R201 and 95_test_vectors.md V7 call a waveform of a `Done` alone empty. -/
def visible (l : Latches) : Event → Bool
  | .drive n v => l.get n != v
  | .sample _ _ => false
  | .wait _ _ | .done _ | .reset => true

/-- R11: the waveform of a trace that starts with the latches `l`. -/
def waveform : Latches → List Event → List Event
  | _, [] => []
  | l, e :: es => if visible l e then e :: waveform (l.after e) es else waveform (l.after e) es

/-- R108: the pair (RS, nibble) taken at a rising edge of EN. R108 speaks of whole pulses only; that a pulse which a reset or a collaborator failure (R202) cuts short counts at its rise, and that a drive of EN High over an EN left High takes no pair, is the model's choice (DESIGN CHOICE, log 20). -/
def latch (l : Latches) (e : Event) : List (Level × Nibble) :=
  if e = .drive .en .high ∧ l.en = .low then [(l.rs, l.nibble)] else []

/-- R108: `Latched`. -/
def latched : Latches → List Event → List (Level × Nibble)
  | _, [] => []
  | l, e :: es => latch l e ++ latched (l.after e) es

/-- R108, R53: the bytes of a sequence that is all byte writes, high nibble first. -/
def latchedBytes : List (Level × Nibble) → List (Level × Byte)
  | (r, h) :: (_, n) :: rest => (r, h ++ n) :: latchedBytes rest
  | _ => []

/-- R106: the number of EN pulses begun: the drives of EN High, each counted, whether or not the pulse ends (log 20). -/
def pulses (es : List Event) : Nat := es.count (.drive .en .high)

/-- R12: the least time an event takes. -/
def Event.minUs : Event → Nat
  | .wait _ us => us
  | .drive _ _ | .sample _ _ | .done _ | .reset => 0

/-- R12, R109: the sum of the minimum waits of a trace. -/
def minElapsed (es : List Event) : Nat := (es.map Event.minUs).sum

/-- R12: the time a trace takes when the k-th event takes `extra k` more than its least time; any `extra` in whole microseconds is possible. R12 lets the time be any at all; that it is a whole number of microseconds is the model's choice (DESIGN CHOICE, log 15). -/
def elapsed (extra : Nat → Nat) : List Event → Nat
  | [] => 0
  | e :: es => e.minUs + extra 0 + elapsed (fun k => extra (k + 1)) es

/-- R21: a data line. -/
def isDataLine : Line → Bool
  | .d4 | .d5 | .d6 | .d7 => true
  | .rs | .en => false

/-- R11, D16: traces equal up to the order of adjacent drives of different data lines. -/
inductive SameUpToDataOrder : List Event → List Event → Prop where
  | refl (es : List Event) : SameUpToDataOrder es es
  | swap (a b : Line) (v w : Level) (es : List Event) (ha : isDataLine a = true) (hb : isDataLine b = true)
      (hab : a ≠ b) : SameUpToDataOrder (.drive a v :: .drive b w :: es) (.drive b w :: .drive a v :: es)
  | cons (e : Event) {es fs : List Event} (h : SameUpToDataOrder es fs) :
      SameUpToDataOrder (e :: es) (e :: fs)
  | trans {es fs gs : List Event} (h : SameUpToDataOrder es fs) (k : SameUpToDataOrder fs gs) :
      SameUpToDataOrder es gs

end Sys2Proof.Machine
end

