-- ==== Sys2Proof/Safety.lean ====
section
/-! DEFINITION. The terms claims are made in: what a safe step is, the invariant of the engine, the order the bus must keep, and the full traces of the operations as the spec writes them. -/

namespace Sys2Proof.Machine

/-- A step is safe if the machine goes on. -/
def Safe (r : Host.Outcome State Fault Refusal) : Prop := ∃ t, r = .next t

/-- `n` steps of the machine. -/
def steps : Nat → State → Host.Outcome State Fault Refusal
  | 0, s => .next s
  | n + 1, s =>
    match step s with
    | .next t => steps n t
    | .fault r => .fault r
    | .refused r => .refused r

/-- The level of EN before a micro-step: High only inside PulseEN, between its two writes (R105). -/
def enBefore (m : Micro) : Level :=
  if m = .wait .enHold ∨ m = .drive .en .low then .high else .low

/-- R154, R24: in the loop of PUTS, CNT is the length less the bytes already sent. -/
def loopCount (len upc cnt : Nat) : Prop := upc = 1 ∨ cnt + (upc - 2) / 17 = len

/-- The invariant of the engine: idle means UPC 0 and EN Low (R24, R32); busy means that UPC names a micro-step of the running operation (R24), that EN has the level R105 gives it there, and that CNT is right (R154). -/
def EngineInv (s : State) : Prop :=
  (s.status.busy = false → s.upc = 0 ∧ s.out.en = .low) ∧
  (s.status.busy = true →
    (∃ m, s.currentMicro = some m ∧ s.out.en = enBefore m) ∧
    s.upc ≤ microCount s.running ∧
    (∀ len, s.running = .puts len → loopCount len s.upc s.cnt))

/-- No reset comes within `n` micro-steps (R230, log 6). -/
def NoResetWithin (n : Nat) (s : State) : Prop := ∀ k, s.rstAfter = some k → n ≤ k

/-- R6: the collaborators cannot fail and RS reads back its latch: the spec's setting, with every other parameter open. -/
def IdealCollaborators (P : Params) : Prop := P.collabFaults = false ∧ P.rsLoopback = true

/-! The order on the bus (R60, R105). -/

/-- Where a byte or raw nibble on the bus stands; the flag says that it is the second nibble of a byte. -/
inductive BusPhase where
  | rest
  | driving (second : Bool)
  | raised (second : Bool)
  | held (second : Bool)
  | fallen (second : Bool)
  | sampled (second : Bool)
  | between
  deriving DecidableEq, Repr

/-- The waits of INIT (R131); the other classes belong to a pulse or a settle delay. -/
def isSequencerWait : WaitClass → Bool
  | .pwr | .gap1 | .gap2 | .gap3 | .fourBit => true
  | .enHold | .short | .long => false

/-- R60, R105: which event may come next. -/
def busStep : BusPhase → Event → Option BusPhase
  | _, .reset => some .rest
  | .rest, .drive l _ => if isDataLine l then some (.driving false) else if l = .rs then some .rest else none
  | .rest, .wait k _ => if isSequencerWait k then some .rest else none
  | .rest, .done _ => some .rest
  | .driving h, .drive l v =>
    if isDataLine l then some (.driving h) else if l = .en ∧ v = .high then some (.raised h) else none
  | .raised h, .wait k _ => if k = .enHold then some (.held h) else none
  | .held h, .drive l v => if l = .en ∧ v = .low then some (.fallen h) else none
  | .fallen h, .sample _ _ => some (.sampled h)
  | .fallen false, .wait k _ => if isSequencerWait k then some .rest else none
  | .sampled h, .wait k _ =>
    if k = .short ∨ k = .long then some (if h then .rest else .between) else none
  | .between, .drive l _ => if isDataLine l then some (.driving true) else none
  | _, _ => none

/-- R60, R105: a trace that keeps the order and leaves the bus at rest. -/
def orderly (es : List Event) : Bool := es.foldlM busStep .rest == some .rest

/-! The full traces as R100 to R104, R131 and R151 to R156 write them. -/

/-- R100: DriveNibble. -/
def nibbleEvents (n : Nibble) : List Event :=
  [.drive .d4 (bitLevel n 0), .drive .d5 (bitLevel n 1), .drive .d6 (bitLevel n 2),
    .drive .d7 (bitLevel n 3)]

/-- R101: PulseEN. -/
def pulseEvents (P : Params) : List Event :=
  [.drive .en .high, .wait .enHold P.tEnHoldUs, .drive .en .low]

/-- R102: SettleDelay when RS reads back as `r`. -/
def settleEvents (P : Params) (r : Level) : List Event :=
  [.sample .rs r,
    if r = P.longLevel then .wait .long P.tLongMinUs else .wait .short P.tShortMinUs]

/-- R103: RawNibble. -/
def rawEvents (P : Params) (n : Nibble) : List Event := nibbleEvents n ++ pulseEvents P

/-- R104: WriteByte when the two samples of RS read `r₁` and `r₂`. -/
def sampledByteEvents (P : Params) (b : Byte) (m : RsMode) (r₁ r₂ : Level) : List Event :=
  [.drive .rs m.level] ++ nibbleEvents (highNibble b) ++ pulseEvents P ++ settleEvents P r₁
    ++ nibbleEvents (lowNibble b) ++ pulseEvents P ++ settleEvents P r₂

/-- R104: WriteByte when RS reads back its latch. -/
def byteEvents (P : Params) (b : Byte) (m : RsMode) : List Event :=
  sampledByteEvents P b m m.level m.level

/-- R154: the bytes of a string. -/
def stringEvents (P : Params) (bs : List Byte) : List Event :=
  bs.flatMap fun b => byteEvents P b .character

/-- R131: the handshake of INIT, less its `Done`: three pulses of `n₈`, one of `n₄`, then five command bytes. -/
def handshakeEvents (P : Params) (n₈ n₄ : Nibble) (b₁ b₂ b₃ b₄ b₅ : Byte) : List Event :=
  [.drive .rs .low, .wait .pwr P.tPwrMinUs]
    ++ rawEvents P n₈ ++ [.wait .gap1 P.tGap1MinUs]
    ++ rawEvents P n₈ ++ [.wait .gap2 P.tGap2MinUs]
    ++ rawEvents P n₈ ++ [.wait .gap3 P.tGap3MinUs]
    ++ rawEvents P n₄ ++ [.wait .fourBit P.t4BitMinUs]
    ++ byteEvents P b₁ .command ++ byteEvents P b₂ .command ++ byteEvents P b₃ .command
    ++ byteEvents P b₄ .command ++ byteEvents P b₅ .command

/-- R131: INIT with the nibbles and bytes of an instance (R6), less its `Done`. -/
def initEvents (P : Params) : List Event :=
  handshakeEvents P P.nibFs8 P.nibFs4 P.cmdFuncset P.cmdDispOff P.cmdClear P.cmdEntry P.cmdDispOn

/-- The full trace of a host operation, less its `Done`, when nothing cuts it short and a string is `bs` (R104, R131, R151 to R156, R215). -/
def fullEvents (P : Params) (bs : List Byte) : Instr → List Event
  | .init => initEvents P
  | .clear => byteEvents P P.cmdClear .command
  | .setcur row column =>
    [.drive .rs .low] ++ byteEvents P (P.cmdSetDdram ||| map P row column) .command
  | .putc c => [.drive .rs .high] ++ byteEvents P c .character ++ [.drive .rs .low]
  | .puts _ => [.drive .rs .high] ++ stringEvents P bs ++ [.drive .rs .low]
  | .wrb b m => byteEvents P b m
  | .putsNull | .reserved6 | .reserved7 => []
  | .lcdClear | .lcdEntry | .lcdDispOff | .lcdDispOn | .lcdFuncset => []
  | .lcdSetDdram _ | .lcdData _ | .lcdNibFs8 | .lcdNibFs4 => []

/-- Latches that rest after a nibble: EN Low, the nibble on D7 to D4 (R32, R52). -/
def restingLatches (rs : Level) (n : Nibble) : Latches where
  rs := rs
  en := .low
  d4 := bitLevel n 0
  d5 := bitLevel n 1
  d6 := bitLevel n 2
  d7 := bitLevel n 3

/-- A state after `n` micro-steps that appended `es`: UPC is `n` further (R24), the reset input `n` nearer, all else as in `s`. -/
def progressed (n : Nat) (es : List Event) (s : State) : State :=
  { s with upc := s.upc + n, rstAfter := s.rstAfter.map (· - n), trace := s.trace ++ es }

/-- A state at the end of a completed operation of `n` micro-steps with status OK: the trace has the operation's events and its `Done`, STATUS and UPC are idle (R10, R25), the reset input has come `n` micro-steps nearer, all else is as in `s`. -/
def completed (n : Nat) (es : List Event) (s : State) : State :=
  { s with
    status := { busy := false, err := .ok }
    upc := 0
    rstAfter := s.rstAfter.map (· - n)
    trace := s.trace ++ es ++ [.done .ok] }

/-- A host operation: not a row of what the engine emits. -/
def isHostOp : Instr → Bool
  | .init | .clear | .setcur _ _ | .putc _ | .puts _ | .putsNull | .wrb _ _ => true
  | .reserved6 | .reserved7 => true
  | .lcdClear | .lcdEntry | .lcdDispOff | .lcdDispOn | .lcdFuncset => false
  | .lcdSetDdram _ | .lcdData _ | .lcdNibFs8 | .lcdNibFs4 => false

/-- The string a PUTS takes from the payload channel (R75); nothing for the other instructions. -/
def stringOf (s : State) : Instr → List Byte
  | .puts len => s.payload.take len
  | _ => []

/-- Every byte of a PUTS is on the payload channel when it starts, so that it never waits for one (R62). -/
def StringReady (i : Instr) (s : State) : Prop := ∀ len, i = .puts len → len ≤ s.payload.length

/-- R184, R204: the operation is not a SETCUR whose row is refused before any collaborator is touched. -/
def RowAccepted (P : Params) (i : Instr) : Prop :=
  ∀ row column, i = .setcur row column → rowRefused P row = false

/-- R32, R52: the latches after a string's bytes: unchanged but for RS if there was none. -/
def afterString (rs : Level) (bs : List Byte) (l : Latches) : Latches :=
  match bs.getLast? with
  | none => { l with rs := rs }
  | some b => restingLatches rs (lowNibble b)

/-- The pairs (RS, nibble) of a byte on the bus (R53, R108). -/
def pairOf (r : Level) (b : Byte) : List (Level × Nibble) := [(r, highNibble b), (r, lowNibble b)]

/-- R106, R108: what the controller takes from each host operation whose string is `bs`, with the spec's own parameters (R104, R131 example, R151 to R156). -/
def latchedOf (bs : List Byte) : Instr → List (Level × Nibble)
  | .init =>
    [(.low, 0x3), (.low, 0x3), (.low, 0x3), (.low, 0x2), (.low, 0x2), (.low, 0x8), (.low, 0x0),
      (.low, 0x8), (.low, 0x0), (.low, 0x1), (.low, 0x0), (.low, 0x6), (.low, 0x0), (.low, 0xC)]
  | .clear => [(.low, 0x0), (.low, 0x1)]
  | .setcur row column => pairOf .low (0x80 ||| map params row column)
  | .putc c => pairOf .high c
  | .puts _ => bs.flatMap (pairOf .high)
  | .wrb b m => pairOf m.level b
  | .putsNull | .reserved6 | .reserved7 => []
  | .lcdClear | .lcdEntry | .lcdDispOff | .lcdDispOn | .lcdFuncset => []
  | .lcdSetDdram _ | .lcdData _ | .lcdNibFs8 | .lcdNibFs4 => []

end Sys2Proof.Machine
end

