-- ==== Sys2Proof/Certificates/Slice0/Obligations.lean ====
section
/-! DEFINITION. The statements for the provers, from the numbered rules of spec/. -/

open Sys2Proof Sys2Proof.Machine

/-! ## Encoding -/

/-- R70 to R79: every well-formed instruction, with every operand, is what the decoder reads from its encoding. -/
def Obligations.DecodeOfEncodeIsTheInstruction : Prop :=
  ∀ i : Instr, i.WellFormed → decode (encode i) = .ok i

/-- R73: the bits an operation does not use have no effect, and the encoder writes them as 0. -/
def Obligations.IgnoredBitsHaveNoEffect : Prop :=
  ∀ w : CmdWord,
    decodeWord (canonicalWord w) = decodeWord w ∧ encode (decodeWord w) = .host (canonicalWord w)

/-- Section 2.6 of 95_test_vectors.md: what each of its words decodes to. -/
def Obligations.ListedWordsDecodeAsListed : Prop :=
  decodeWord 0x00000 = .init ∧ decodeWord 0x0ABCD = .init ∧ decodeWord 0x10000 = .clear ∧
  decodeWord 0x1FFFF = .clear ∧ decodeWord 0x20205 = .setcur 2 5 ∧
  decodeWord 0x20110 = .setcur 1 16 ∧ decodeWord 0x30041 = .putc 0x41 ∧
  decodeWord 0x3FF41 = .putc 0x41 ∧ decodeWord 0x40102 = .puts 2 ∧ decodeWord 0x40100 = .puts 0 ∧
  decodeWord 0x4FF03 = .puts 3 ∧ decodeWord 0x40000 = .putsNull ∧ decodeWord 0x4FE07 = .putsNull ∧
  decodeWord 0x50028 = .wrb 0x28 .command ∧ decodeWord 0x50141 = .wrb 0x41 .character ∧
  decodeWord 0x60000 = .reserved6 ∧ decodeWord 0x7FFFF = .reserved7

/-- R77, R78, R79: the decoder reads exactly the rows of the table from the LCD side. -/
def Obligations.LcdSideDecodesExactlyItsRows : Prop :=
  (∀ (b : Byte) (i : Instr), decode (.lcdByte .low b) = .ok i ↔
    (b = 0x01 ∧ i = .lcdClear) ∨ (b = 0x06 ∧ i = .lcdEntry) ∨ (b = 0x08 ∧ i = .lcdDispOff) ∨
    (b = 0x0C ∧ i = .lcdDispOn) ∨ (b = 0x28 ∧ i = .lcdFuncset) ∨
    (∃ a : BitVec 7, b.toNat = 0x80 + a.toNat ∧ i = .lcdSetDdram a)) ∧
  (∀ (d : Byte) (i : Instr), decode (.lcdByte .high d) = .ok i ↔ i = .lcdData d) ∧
  (∀ (n : Nibble) (i : Instr), decode (.lcdNibble n) = .ok i ↔
    (n = 0b0011 ∧ i = .lcdNibFs8) ∨ (n = 0b0010 ∧ i = .lcdNibFs4))

/-- R83: the word of each line of the assembler. -/
def Obligations.AssemblerLinesHaveTheirWords : Prop :=
  encode AsmLine.init.instr = .host 0x00000 ∧
  encode AsmLine.clear.instr = .host 0x10000 ∧
  (∀ row column : Byte, encode (AsmLine.setcur row column).instr =
    .host (0x20000 ||| (row.zeroExtend 19 <<< 8) ||| column.zeroExtend 19)) ∧
  (∀ c : Byte, encode (AsmLine.putc c).instr = .host (0x30000 ||| c.zeroExtend 19)) ∧
  (∀ text : List Byte, text.length ≤ 255 →
    encode (AsmLine.puts text).instr = .host (0x40100 ||| BitVec.ofNat 19 text.length) ∧
    (AsmLine.puts text).payload = text) ∧
  encode AsmLine.putsNull.instr = .host 0x40000 ∧
  (∀ b : Byte, encode (AsmLine.wrb b .command).instr = .host (0x50000 ||| b.zeroExtend 19)) ∧
  (∀ b : Byte, encode (AsmLine.wrb b .character).instr = .host (0x50100 ||| b.zeroExtend 19))

/-- R75: a PUTS has a word exactly if its string has at most 255 bytes. -/
def Obligations.OnlyShortStringsHaveAWord : Prop :=
  ∀ len : Nat, decode (encode (.puts len)) = .ok (.puts len) ↔ len ≤ 255

/-! ## The step, acceptance and reset -/

/-- A step runs the decoded instruction (the granularity is the model's choice, log 1): at an idle engine the operation of the offered word, with the word latched in CW; at a busy engine that stands before an emission of the table, that emission, and then the end of the operation if it was its last micro-step; at a busy engine that stands before none, one micro-step of the running operation; with no offer it waits. -/
def Obligations.StepRunsTheDecodedInstruction : Prop :=
  (∀ (s : State) (w : CmdWord) (ws : List CmdWord) (i : Instr),
    s.rstAfter ≠ some 0 → s.status.busy = false → s.offers = w :: ws → decode (.host w) = .ok i →
    step s = exec i { s with cw := w, offers := ws }) ∧
  (∀ (s : State) (p : Stmt) (x : BusWord) (i : Instr),
    s.rstAfter ≠ some 0 → s.status.busy = true → s.position = some (p, 0) →
    p.busWord params s = some x → decode x = .ok i → step s = closeOutcome (exec i s)) ∧
  (∀ s : State, s.rstAfter ≠ some 0 → s.status.busy = true → s.nextEmission params = none →
    step s = microStep params s) ∧
  (∀ s : State, s.rstAfter ≠ some 0 → s.status.busy = false → s.offers = [] →
    step s = .next { s with rstAfter := s.rstAfter.map (· - 1) })

/-- R150: a word offered while BUSY is not accepted and has no effect: the step of a busy engine leaves the offers and does the same whatever they are. -/
def Obligations.BusyEngineAcceptsNothing : Prop :=
  ∀ s t : State, s.status.busy = true → step s = .next t →
    t.offers = s.offers ∧
    ∀ ws : List CmdWord, step { s with offers := ws } = .next { t with offers := ws }

/-- R150: an accepted word is latched, BUSY and UPC are 1 before the first micro-step. -/
def Obligations.AcceptanceLatchesTheWord : Prop :=
  ∀ (w : CmdWord) (ws : List CmdWord) (s : State),
    let t := begin (accept w ws s)
    t.cw = w ∧ t.status.busy = true ∧ t.status.err = s.status.err ∧ t.upc = 1 ∧ t.out = s.out ∧
    t.trace = s.trace ∧ t.payload = s.payload

/-- R31, R230: what the spec states of the state after reset (the datapath latches are the model's choice, log 4, and not claimed). -/
def Obligations.ResetStateIsIdleAndLow : Prop :=
  State.reset.out.word = 0b000000 ∧ State.reset.status.word = 0b000 ∧ State.reset.upc = 0 ∧
  (∀ l : Line, State.reset.out.get l = .low) ∧ State.reset.currentMicro = none

/-- R230, R232: a reset that is due takes effect in the next step whatever runs: latches, STATUS and UPC at their reset values, no `Done`. That the trace records it as an event, and that offers and payload stay, is the model's choice (log 6). -/
def Obligations.ResetAbandonsWhateverRuns : Prop :=
  ∀ s : State, s.rstAfter = some 0 → ∃ t, step s = .next t ∧
    t.out.word = 0b000000 ∧ t.status.word = 0b000 ∧ t.upc = 0 ∧ t.rstAfter = none ∧
    t.trace = s.trace ++ [.reset] ∧ t.offers = s.offers ∧ t.payload = s.payload

/-- R232: a reset that lands before micro-step k + 1 of an operation abandons it at once: exactly its first k micro-steps have been performed (`u` is where they lead with no reset in sight; UPC counts them), no primitive and no `Done` follows, and the latches are at their reset values; what the surroundings hold is as the k micro-steps left it (where the reset lands is input data, log 6). -/
def Obligations.ResetInsideAnOperationCutsItShort : Prop :=
  ∀ (i : Instr) (s : State) (k : Nat), isHostOp i = true → StringReady i s →
    s.rstAfter = some k → k < microCount i →
    ∃ (u t : State) (pre : List Event),
      runMicros params ((micros (program i)).take k) (begin { s with rstAfter := none }) = .going u ∧
      u.upc = k + 1 ∧ u.trace = s.trace ++ pre ∧ pre <+: fullEvents params (stringOf s i) i ∧
      exec i s = .next t ∧ t.trace = u.trace ++ [.reset] ∧
      t.out = Latches.reset ∧ t.status = Status.reset ∧ t.upc = 0 ∧ t.rstAfter = none ∧
      t.offers = u.offers ∧ t.payload = u.payload

/-! ## The operations: result, frame and completion -/

/-- R131, R132, R136: INIT's full trace, with the nibbles and bytes of this spec in their order, its end state, and that nothing else changes; the same under any parameters with ideal collaborators. -/
def Obligations.InitPerformsTheHandshake : Prop :=
  (∀ s : State, NoResetWithin 119 s →
    exec .init s = .next (completed 119
      (handshakeEvents params 0b0011 0b0010 0x28 0x08 0x01 0x06 0x0C)
      { s with byte := 0x0C, mode := .command, out := restingLatches .low 0xC })) ∧
  (∀ (P : Params) (s : State), IdealCollaborators P → NoResetWithin 119 s →
    runInit P s = .next (completed 119 (initEvents P)
      { s with
        byte := P.cmdDispOn, mode := .command
        out := restingLatches .low (lowNibble P.cmdDispOn) }))

/-- R151: CLEAR. -/
def Obligations.ClearWritesItsCommand : Prop :=
  (∀ s : State, NoResetWithin 17 s →
    exec .clear s = .next (completed 17 (byteEvents params 0x01 .command)
      { s with byte := 0x01, mode := .command, out := restingLatches .low 0x1 })) ∧
  (∀ (P : Params) (s : State), IdealCollaborators P → NoResetWithin 17 s →
    runClear P s = .next (completed 17 (byteEvents P P.cmdClear .command)
      { s with
        byte := P.cmdClear, mode := .command
        out := restingLatches .low (lowNibble P.cmdClear) }))

/-- R152, R184: SETCUR, for every row and column; only with STRICT_ROW a row that is neither 1 nor 2 ends with InvalidArgument before any line is driven. (What N_ROWS other than 2 means is the model's choice, log 25.) -/
def Obligations.SetcurSendsTheMappedAddress : Prop :=
  (∀ (row column : Byte) (s : State), NoResetWithin 18 s →
    exec (.setcur row column) s =
      .next (completed 18
        ([.drive .rs .low] ++ byteEvents params (0x80 ||| map params row column) .command)
        { s with
          addr := map params row column, byte := 0x80 ||| map params row column
          mode := .command
          out := restingLatches .low (lowNibble (0x80 ||| map params row column)) })) ∧
  (∀ (P : Params) (row column : Byte) (s : State), IdealCollaborators P → NoResetWithin 18 s →
    rowRefused P row = false →
    runSetcur P row column s =
      .next (completed 18
        ([.drive .rs .low] ++ byteEvents P (P.cmdSetDdram ||| map P row column) .command)
        { s with
          addr := map P row column, byte := P.cmdSetDdram ||| map P row column, mode := .command
          out := restingLatches .low (lowNibble (P.cmdSetDdram ||| map P row column)) })) ∧
  (∀ (P : Params) (row : Byte), P.nRows = 2 →
    (rowRefused P row = true ↔ P.strictRow = true ∧ row ≠ 1 ∧ row ≠ 2)) ∧
  (∀ (P : Params) (row column : Byte) (s : State), rowRefused P row = true →
    runSetcur P row column s =
      .next { s with
        status := { busy := false, err := .invalidArgument }, upc := 0
        trace := s.trace ++ [.done .invalidArgument] })

/-- R153: PUTC. -/
def Obligations.PutcSendsOneCharacter : Prop :=
  (∀ (c : Byte) (s : State), NoResetWithin 19 s →
    exec (.putc c) s =
      .next (completed 19
        ([.drive .rs .high] ++ byteEvents params c .character ++ [.drive .rs .low])
        { s with byte := c, mode := .character, out := restingLatches .low (lowNibble c) })) ∧
  (∀ (P : Params) (c : Byte) (s : State), IdealCollaborators P → NoResetWithin 19 s →
    runPutc P c s =
      .next (completed 19 ([.drive .rs .high] ++ byteEvents P c .character ++ [.drive .rs .low])
        { s with byte := c, mode := .character, out := restingLatches .low (lowNibble c) }))

/-- R154: PUTS of a string that is on the payload channel: RS High once, every byte in order, RS Low. -/
def Obligations.PutsSendsTheStringInOrder : Prop :=
  (∀ (bs rest : List Byte) (s : State), s.payload = bs ++ rest →
    NoResetWithin (2 + 17 * bs.length) s →
    exec (.puts bs.length) s =
      .next (completed (2 + 17 * bs.length)
        ([.drive .rs .high] ++ stringEvents params bs ++ [.drive .rs .low])
        { s with
          payload := rest, cnt := 0, byte := bs.getLast?.getD s.byte
          mode := if bs = [] then s.mode else .character
          out := afterString .low bs s.out })) ∧
  (∀ (P : Params) (bs rest : List Byte) (s : State), IdealCollaborators P →
    s.payload = bs ++ rest → NoResetWithin (2 + 17 * bs.length) s →
    runPuts P bs.length s =
      .next (completed (2 + 17 * bs.length)
        ([.drive .rs .high] ++ stringEvents P bs ++ [.drive .rs .low])
        { s with
          payload := rest, cnt := 0, byte := bs.getLast?.getD s.byte
          mode := if bs = [] then s.mode else .character
          out := afterString .low bs s.out }))

/-- R156: the empty string: RS is driven High and Low, no data line, no pulse, no wait, no sample; from RS Low the waveform is those two drives (and the closing Done, which the observer keeps, log 26). -/
def Obligations.EmptyStringOnlyTogglesRs : Prop :=
  ∀ s : State, NoResetWithin 2 s → s.out.rs = .low →
    ∃ t, exec (.puts 0) s = .next t ∧
      t.trace = s.trace ++ [.drive .rs .high, .drive .rs .low, .done .ok] ∧ t.out = s.out ∧
      t.payload = s.payload ∧ t.status = { busy := false, err := .ok } ∧
      waveform s.out [.drive .rs .high, .drive .rs .low, .done .ok] =
        [.drive .rs .high, .drive .rs .low, .done .ok]

/-- R62: a PUTS whose string runs out on the channel waits, busy, with EN Low and RS High, having sent what there was. -/
def Obligations.PutsWaitsForAMissingByte : Prop :=
  ∀ (len : Nat) (s : State), s.payload.length < len →
    NoResetWithin (2 + 17 * s.payload.length) s →
    exec (.puts len) s =
      .next { s with
        status := { busy := true, err := s.status.err }
        upc := 2 + 17 * s.payload.length, payload := [], cnt := len - s.payload.length
        byte := s.payload.getLast?.getD s.byte
        mode := if s.payload = [] then s.mode else .character
        out := afterString .high s.payload s.out
        rstAfter := s.rstAfter.map (· - (2 + 17 * s.payload.length))
        trace := s.trace ++ [.drive .rs .high] ++ stringEvents params s.payload }

/-- R62: while the byte is missing a step changes nothing (only the reset input comes nearer, log 6). -/
def Obligations.WaitingForAByteChangesNothing : Prop :=
  ∀ s : State, s.rstAfter ≠ some 0 → s.status.busy = true →
    s.currentMicro = some .startStringByte → s.payload = [] →
    step s = .next { s with rstAfter := s.rstAfter.map (· - 1) }

/-- R155, R215, R74: PUTS.NULL and the reserved opcodes end with InvalidArgument and do nothing else. -/
def Obligations.NullAndReservedEndWithInvalidArgument : Prop :=
  ∀ (i : Instr) (s : State), i = .putsNull ∨ i = .reserved6 ∨ i = .reserved7 →
    exec i s = .next { s with
      status := { busy := false, err := .invalidArgument }, upc := 0
      trace := s.trace ++ [.done .invalidArgument] }

/-- R104: WRB, for every byte and mode. -/
def Obligations.WrbWritesTheByte : Prop :=
  (∀ (b : Byte) (m : RsMode) (s : State), NoResetWithin 17 s →
    exec (.wrb b m) s = .next (completed 17 (byteEvents params b m)
      { s with byte := b, mode := m, out := restingLatches m.level (lowNibble b) })) ∧
  (∀ (P : Params) (b : Byte) (m : RsMode) (s : State), IdealCollaborators P → NoResetWithin 17 s →
    runWrb P b m s = .next (completed 17 (byteEvents P b m)
      { s with byte := b, mode := m, out := restingLatches m.level (lowNibble b) }))

/-- R77, R104: the emission of each command row: a byte write with RS Low; UPC goes on by 17 and nothing else changes (that a row's meaning is its emission is the model's choice, log 12). -/
def Obligations.CommandRowsAreByteWrites : Prop :=
  ∀ (i : Instr) (b : Byte) (s : State), NoResetWithin 17 s →
    ((i = .lcdClear ∧ b = 0x01) ∨ (i = .lcdEntry ∧ b = 0x06) ∨ (i = .lcdDispOff ∧ b = 0x08) ∨
      (i = .lcdDispOn ∧ b = 0x0C) ∨ (i = .lcdFuncset ∧ b = 0x28) ∨
      (∃ a : BitVec 7, i = .lcdSetDdram a ∧ b.toNat = 0x80 + a.toNat)) →
    exec i s = .next (progressed 17 (byteEvents params b .command)
      { s with byte := b, mode := .command, out := restingLatches .low (lowNibble b) })

/-- R78, R104: the emission of a data byte, unchanged, with RS High (log 12). -/
def Obligations.DataRowIsACharacterWrite : Prop :=
  ∀ (d : Byte) (s : State), NoResetWithin 17 s →
    exec (.lcdData d) s = .next (progressed 17 (byteEvents params d .character)
      { s with byte := d, mode := .character, out := restingLatches .high (lowNibble d) })

/-- R79, R103: the emission of the two raw nibbles: DriveNibble and PulseEN, RS and the datapath latches untouched, no settle delay (log 12). -/
def Obligations.RawNibbleRowsPulseOnce : Prop :=
  ∀ (i : Instr) (n : Nibble) (s : State), NoResetWithin 7 s →
    ((i = .lcdNibFs8 ∧ n = 0b0011) ∨ (i = .lcdNibFs4 ∧ n = 0b0010)) →
    exec i s = .next (progressed 7 (nibbleEvents n ++ pulseEvents params)
      { s with out := restingLatches s.out.rs n })

/-! ## Operands -/

/-- R180, R181, R182: MAP for every row and column, in numbers, with this spec's ROW2_BASE and N_ROWS. -/
def Obligations.MapIsTheMapper : Prop :=
  (∀ column : Byte, (map params 1 column).toNat = (column.toNat + 255) % 256) ∧
  (∀ column : Byte, (map params 2 column).toNat = (0x40 + column.toNat + 255) % 256) ∧
  (∀ row column : Byte, row ≠ 1 → row ≠ 2 → map params row column = 0)

/-- R186: the table of values: row, column, ADDR, command byte. -/
def Obligations.MapTableHolds : Prop :=
  ∀ e ∈ [((1 : Byte), (1 : Byte), (0x00 : Byte), (0x80 : Byte)), (1, 16, 0x0F, 0x8F),
      (1, 40, 0x27, 0xA7), (2, 1, 0x40, 0xC0), (2, 5, 0x44, 0xC4), (2, 16, 0x4F, 0xCF),
      (2, 40, 0x67, 0xE7), (0, 5, 0x00, 0x80), (3, 5, 0x00, 0x80), (255, 9, 0x00, 0x80),
      (1, 0, 0xFF, 0xFF), (2, 0, 0x3F, 0xBF), (1, 128, 0x7F, 0xFF), (1, 129, 0x80, 0x80),
      (1, 255, 0xFE, 0xFE), (2, 64, 0x7F, 0xFF), (2, 65, 0x80, 0x80), (2, 192, 0xFF, 0xFF),
      (2, 193, 0x00, 0x80), (2, 255, 0x3E, 0xBE)],
    map params e.1 e.2.1 = e.2.2.1 ∧ setDdramByte params e.2.2.1 = e.2.2.2

/-- R185: the command byte: bit 7 is 1, bits 6..0 are ADDR[6:0]; below 0x80 the OR is the sum. -/
def Obligations.SetAddressByteIsTheOr : Prop :=
  ∀ addr : Byte,
    (setDdramByte params addr).getLsbD 7 = true ∧
    (∀ k < 7, (setDdramByte params addr).getLsbD k = addr.getLsbD k) ∧
    (addr.toNat < 0x80 → (setDdramByte params addr).toNat = 0x80 + addr.toNat)

/-- R102, R22: the settle delay's class is chosen by the level read back from RS when it starts: the latch with RS_LOOPBACK, otherwise an input (a free value when the input list is used up, log 7); nothing but the trace and the input changes, and no mode is consulted. It lasts at least the short minimum, whatever the level, where that is not above the long one, and so in this instance. -/
def Obligations.SettleDelayFollowsTheReadBack : Prop :=
  (∀ (P : Params) (s : State), P.collabFaults = false →
    (P.rsLoopback = true →
      settleDelay P s = .going { s with trace := s.trace ++ settleEvents P s.out.rs }) ∧
    (∀ (r : Level) (rs : List Level), P.rsLoopback = false → s.rsIn = r :: rs →
      settleDelay P s = .going { s with rsIn := rs, trace := s.trace ++ settleEvents P r }) ∧
    (P.rsLoopback = false → s.rsIn = [] → ∃ r : Level,
      settleDelay P s =
        .going { s with draws := s.draws + 1, trace := s.trace ++ settleEvents P r }) ∧
    (∀ r : Level, P.tShortMinUs ≤ P.tLongMinUs → P.tShortMinUs ≤ minElapsed (settleEvents P r))) ∧
  (∀ r : Level, 200 ≤ minElapsed (settleEvents params r))

/-- R22, R236: with a foreign writer of RS the two classes of a byte write follow what is read back, not the mode. -/
def Obligations.ForeignRsDecidesTheWaits : Prop :=
  ∀ (P : Params) (b : Byte) (m : RsMode) (s : State) (r₁ r₂ : Level) (rs : List Level),
    P.collabFaults = false → P.rsLoopback = false → s.rsIn = r₁ :: r₂ :: rs →
    NoResetWithin 17 s →
    runWrb P b m s = .next (completed 17 (sampledByteEvents P b m r₁ r₂)
      { s with byte := b, mode := m, rsIn := rs, out := restingLatches m.level (lowNibble b) })

/-! ## Status and conditions -/

/-- R81: the status codes; 3 is never produced. -/
def Obligations.StatusCodesAreAsNumbered : Prop :=
  ErrCode.code .ok = 0 ∧ ErrCode.code .invalidArgument = 1 ∧
  ErrCode.code .hardwareUnavailable = 2 ∧ (∀ e : ErrCode, e.code ≠ 3)

/-- R25: STATUS read whole: BUSY in bit 0, ERR above it; BUSY goes to 1 at acceptance with ERR kept, and at `Done(e)` BUSY goes to 0 and ERR to e. -/
def Obligations.StatusWordShowsBusyAndErr : Prop :=
  ∀ (e : ErrCode) (s : State),
    (begin s).status.word.toNat = 2 * s.status.err.code.toNat + 1 ∧
    (finish e s).status.word.toNat = 2 * e.code.toNat

/-- R205: raise: STATUS.ERR is the code, BUSY and UPC are 0, one response pulse carries the code, the latches and everything else stay. -/
def Obligations.RaiseOnlyReportsTheCondition : Prop :=
  ∀ (e : ErrCode) (s : State),
    raise e s = { s with
      status := { busy := false, err := e }, upc := 0, trace := s.trace ++ [.done e] } ∧
    responses (raise e s).trace = responses s.trace ++ [e.code]

/-- R201, R202, R107, R133: with the machine's parameters an operation ends with InvalidArgument exactly for PUTS.NULL and the reserved opcodes, and then nothing else is in its trace; it never ends with HardwareUnavailable. -/
def Obligations.ConditionsHaveExactlyTheirCauses : Prop :=
  ∀ (i : Instr) (s : State), isHostOp i = true →
    ∃ (t : State) (es : List Event), exec i s = .next t ∧ t.trace = s.trace ++ es ∧
      (.done .invalidArgument ∈ es ↔ i = .putsNull ∨ i = .reserved6 ∨ i = .reserved7) ∧
      (.done .invalidArgument ∈ es → es = [.done .invalidArgument] ∧ t.out = s.out) ∧
      .done .hardwareUnavailable ∉ es

/-- R202, R204: with COLLAB_FAULTS, where the first failing call is the k-th of an operation whose row is not refused, exactly the k events before it have happened, the latches keep what they wrote, and the operation has ended with HardwareUnavailable. PUTS.NULL, a reserved opcode, and a SETCUR whose row is refused (R184) end with InvalidArgument first, under any parameters, and touch no collaborator: every input is as before. The model's choice: which call fails is input data (log 8); a settle delay is two calls, so that its sample can have happened when its wait fails (log 19); which rows an instance with N_ROWS other than 2 refuses (log 25). -/
def Obligations.CollaboratorFailureEndsTheOperation : Prop :=
  (∀ (P : Params) (i : Instr) (s : State) (k : Nat) (rest : List Bool),
    P.collabFaults = true → P.rsLoopback = true → isHostOp i = true → RowAccepted P i →
    StringReady i s → NoResetWithin (microCount i) s →
    k < (fullEvents P (stringOf s i) i).length →
    s.failIn = List.replicate k false ++ true :: rest →
    ∃ t, execWith P i s = .next t ∧
      t.trace = s.trace ++ (fullEvents P (stringOf s i) i).take k ++ [.done .hardwareUnavailable] ∧
      t.out = ((fullEvents P (stringOf s i) i).take k).foldl Latches.after s.out ∧
      t.status = { busy := false, err := .hardwareUnavailable } ∧ t.upc = 0 ∧ t.failIn = rest) ∧
  (∀ (P : Params) (i : Instr) (s : State),
    (i = .putsNull ∨ i = .reserved6 ∨ i = .reserved7 ∨
      ∃ row column, i = .setcur row column ∧ rowRefused P row = true) →
    execWith P i s = .next { s with
      status := { busy := false, err := .invalidArgument }, upc := 0
      trace := s.trace ++ [.done .invalidArgument] }) ∧
  (∀ (P : Params) (row column c b : Byte) (len : Nat) (m : RsMode) (s : State),
    execWith P .init s = runInit P s ∧ execWith P .clear s = runClear P s ∧
    execWith P (.setcur row column) s = runSetcur P row column s ∧
    execWith P (.putc c) s = runPutc P c s ∧ execWith P (.puts len) s = runPuts P len s ∧
    execWith P (.wrb b m) s = runWrb P b m s)

/-! ## Whole-machine rules -/

/-- R60, R105: whatever the state and wherever a reset lands, a host operation keeps the order on the bus: RS and the data lines do not move while EN is High, EN is High for exactly one hold, and each pulse is followed by its wait before any line moves. -/
def Obligations.EveryOperationKeepsTheBusOrder : Prop :=
  ∀ (i : Instr) (s : State), isHostOp i = true →
    ∃ (t : State) (es : List Event), exec i s = .next t ∧ t.trace = s.trace ++ es ∧
      orderly es = true

/-- R24, R32, R105, R154: the engine's invariant is kept by every step, of this instance and of any with ideal collaborators. -/
def Obligations.StepKeepsTheEngineInvariant : Prop :=
  (∀ s t : State, EngineInv s → step s = .next t → EngineInv t) ∧
  (∀ (P : Params) (s t : State), IdealCollaborators P → EngineInv s → stepWith P s = .next t →
    EngineInv t)

/-- The engine's invariant holds after reset. -/
def Obligations.ResetMeetsTheEngineInvariant : Prop := EngineInv State.reset

/-- R159: from every state of the invariant a step goes on, under any parameters: no fault, no refusal. -/
def Obligations.EngineNeverStops : Prop :=
  (∀ s : State, EngineInv s → Safe (step s)) ∧
  (∀ (P : Params) (s : State), EngineInv s → Safe (stepWith P s))

/-- R24, R244: carried out micro-step by micro-step, from CW, UPC and CNT, an accepted operation comes to the very state its meaning gives, wherever a reset lands. -/
def Obligations.MicroStepsMakeTheOperation : Prop :=
  ∀ (i : Instr) (s : State), decodeWord s.cw = i → 0 < microCount i → StringReady i s →
    microSteps params (microCount i) (begin s) = exec i s

/-- R62: a wait for string bytes leaves no mark: where no reset is pending and the rest of the string comes, the machine's own steps, and the micro-steps alike, end the operation in the state it would have had with all of it there from the start. -/
def Obligations.AWaitForBytesLeavesNoMark : Prop :=
  ∀ (s t : State) (bs₁ bs₂ rest : List Byte),
    decodeWord s.cw = .puts (bs₁.length + bs₂.length) → s.rstAfter = none → bs₂ ≠ [] →
    exec (.puts (bs₁.length + bs₂.length)) { s with payload := bs₁ } = .next t →
    ∃ u, steps (17 * bs₂.length + 1) { t with payload := bs₂ ++ rest } = .next u ∧
      microSteps params (17 * bs₂.length + 1) { t with payload := bs₂ ++ rest } = .next u ∧
      exec (.puts (bs₁.length + bs₂.length)) { s with payload := bs₁ ++ bs₂ ++ rest } = .next u

/-- R20, R23, R26: what no instruction changes, and what only its own instruction changes, in every state: the inputs that are not its own, and ADDR, CNT and the payload but for SETCUR and PUTS. CW stays unless a reset comes. The trace only grows. -/
def Obligations.InstructionsTouchOnlyTheirLatches : Prop :=
  ∀ (i : Instr) (s t : State), exec i s = .next t →
    t.offers = s.offers ∧ t.rsIn = s.rsIn ∧ t.failIn = s.failIn ∧ t.draws = s.draws ∧
    s.trace <+: t.trace ∧
    ((∀ len, i ≠ .puts len) → t.payload = s.payload) ∧
    (s.rstAfter = none → t.cw = s.cw ∧
      ((∀ row column, i ≠ .setcur row column) → t.addr = s.addr) ∧
      ((∀ len, i ≠ .puts len) → t.cnt = s.cnt))

/-- R32: the latches at an operation boundary: EN Low; RS Low but after WRB; the data lines hold the last low nibble, or are unchanged if no byte was sent. -/
def Obligations.LatchesRestAtAnOperationBoundary : Prop :=
  ∀ (i : Instr) (s : State), isHostOp i = true → s.out.en = .low → StringReady i s →
    NoResetWithin (microCount i) s →
    ∃ t, exec i s = .next t ∧ t.status.busy = false ∧ t.out.en = .low ∧
      (match i with
        | .init => t.out.word = 0b110000
        | .clear => t.out.word = 0b000100
        | .setcur row column =>
          t.out.rs = .low ∧ t.out.nibble = lowNibble (0x80 ||| map params row column)
        | .putc c => t.out.rs = .low ∧ t.out.nibble = lowNibble c
        | .puts _ =>
          t.out.rs = .low ∧
            t.out.nibble = ((stringOf s i).getLast?.map lowNibble).getD s.out.nibble
        | .wrb b m => t.out.rs = m.level ∧ t.out.nibble = lowNibble b
        | _ => t.out = s.out)

/-- R33: no state leaks: the full trace of an operation depends on its operands and its string alone, whatever the two states it starts from. -/
def Obligations.FullTraceIsFreeOfHistory : Prop :=
  ∀ (i : Instr) (s s' : State), isHostOp i = true → StringReady i s → StringReady i s' →
    stringOf s i = stringOf s' i → NoResetWithin (microCount i) s →
    NoResetWithin (microCount i) s' →
    ∃ (t t' : State) (es : List Event), exec i s = .next t ∧ exec i s' = .next t' ∧
      t.trace = s.trace ++ es ∧ t'.trace = s'.trace ++ es

/-- R106, R108, R53, R78: from EN Low the controller takes exactly the nibbles of the operation, high nibble first, with its RS; the pulses are as many as R106 counts; the bytes of a string are its own. -/
def Obligations.ControllerTakesExactlyTheNibbles : Prop :=
  ∀ (i : Instr) (s : State), isHostOp i = true → StringReady i s →
    NoResetWithin (microCount i) s → s.out.en = .low →
    ∃ (t : State) (es : List Event), exec i s = .next t ∧ t.trace = s.trace ++ es ∧
      latched s.out es = latchedOf (stringOf s i) i ∧
      pulses es = (latchedOf (stringOf s i) i).length ∧
      (∀ len, i = .puts len →
        latchedBytes (latched s.out es) = (s.payload.take len).map fun b => (Level.high, b))

/-- R11, R100, D16: the order among the data lines of a nibble cannot be seen: traces that differ only in it give the controller the same nibbles, the same pulses, the same times and the same last levels. -/
def Obligations.DataLineOrderIsInvisible : Prop :=
  ∀ es fs : List Event, SameUpToDataOrder es fs →
    (∀ l : Latches, latched l es = latched l fs ∧
      es.foldl Latches.after l = fs.foldl Latches.after l) ∧
    pulses es = pulses fs ∧ minElapsed es = minElapsed fs

/-! ## Timing -/

/-- R243: the pulses of each operation, and its least time under both values of LONG_LEVEL and any T_GAP3_MIN_US. -/
def Obligations.LeastTimesAreAsTabled : Prop :=
  ∀ (g : Nat) (bs : List Byte) (row column b : Byte),
    let hi : Params := { params with tGap3MinUs := g }
    let lo : Params := { params with tGap3MinUs := g, longLevel := .low }
    (∀ n : Nibble, minElapsed (rawEvents hi n) = 1 ∧ minElapsed (rawEvents lo n) = 1) ∧
    minElapsed (fullEvents hi bs (.wrb b .command)) = 402 ∧
    minElapsed (fullEvents lo bs (.wrb b .command)) = 9002 ∧
    minElapsed (fullEvents hi bs (.wrb b .character)) = 9002 ∧
    minElapsed (fullEvents lo bs (.wrb b .character)) = 402 ∧
    minElapsed (fullEvents hi bs .clear) = 402 ∧ minElapsed (fullEvents lo bs .clear) = 9002 ∧
    minElapsed (fullEvents hi bs (.setcur row column)) = 402 ∧
    minElapsed (fullEvents lo bs (.setcur row column)) = 9002 ∧
    minElapsed (fullEvents hi bs (.putc b)) = 9002 ∧
    minElapsed (fullEvents lo bs (.putc b)) = 402 ∧
    minElapsed (fullEvents hi bs (.puts bs.length)) = 9002 * bs.length ∧
    minElapsed (fullEvents lo bs (.puts bs.length)) = 402 * bs.length ∧
    minElapsed (fullEvents hi bs .init) = 25314 + g ∧
    minElapsed (fullEvents lo bs .init) = 68314 + g ∧
    (∀ i : Instr, i = .puts 0 ∧ bs = [] ∨ i = .putsNull ∨ i = .reserved6 ∨ i = .reserved7 →
      minElapsed (fullEvents hi bs i) = 0 ∧ minElapsed (fullEvents lo bs i) = 0 ∧
      pulses (fullEvents hi bs i) = 0) ∧
    (∀ n : Nibble, pulses (rawEvents hi n) = 1) ∧
    (∀ m : RsMode, pulses (fullEvents hi bs (.wrb b m)) = 2) ∧
    pulses (fullEvents hi bs .clear) = 2 ∧ pulses (fullEvents hi bs (.setcur row column)) = 2 ∧
    pulses (fullEvents hi bs (.putc b)) = 2 ∧
    pulses (fullEvents hi bs (.puts bs.length)) = 2 * bs.length ∧
    pulses (fullEvents hi bs .init) = 14

/-- R12: a trace takes at least the sum of its minimum waits, whatever time each event really takes, and no more if none takes more. (The extra times are whole microseconds by the model's choice, log 15.) -/
def Obligations.WaitsAreLowerBounds : Prop :=
  ∀ es : List Event,
    (∀ extra : Nat → Nat, minElapsed es ≤ elapsed extra es) ∧ elapsed (fun _ => 0) es = minElapsed es

/-- R244: the micro-steps of each procedure and operation. -/
def Obligations.MicroStepCountsAreAsListed : Prop :=
  (∀ n : NibSrc, (driveNibble n).length = 4 ∧ (Stmt.raw n).expand.length = 7) ∧
  pulseEn.length = 3 ∧
  (∀ (src : ByteSrc) (m : RsMode), (Stmt.write src m).expand.length = 17) ∧
  (∀ (b : Byte) (m : RsMode), (micros (program (.wrb b m))).length = 17) ∧
  (micros (program .clear)).length = 17 ∧
  (∀ row column : Byte, (micros (program (.setcur row column))).length = 18) ∧
  (∀ c : Byte, (micros (program (.putc c))).length = 19) ∧
  (∀ n : Nat, (micros (program (.puts n))).length = 2 + 17 * n) ∧
  (micros (program .putsNull)).length = 0 ∧ (micros (program .reserved6)).length = 0 ∧
  (micros (program .reserved7)).length = 0 ∧ (micros (program .init)).length = 119

/-! ## The boundary -/

/-- R210, R131, D11: the call each wait makes of the Delay capability; an open upper hint is at least its minimum (the OPEN parameters of 92_eei_decisions.md), and under other parameters it is whatever the instance says. That GAP3 has a hint of its own is read from R131 (log 5). -/
def Obligations.WaitsCallTheDelayCapability : Prop :=
  delayCall params .enHold = .sleepExact 1 ∧
  (∃ hint, 200 ≤ hint ∧ delayCall params .short = .sleepAtLeast 200 hint) ∧
  delayCall params .long = .sleepAtLeast 4500 5500 ∧
  (∃ hint, 15000 ≤ hint ∧ delayCall params .pwr = .sleepAtLeast 15000 hint) ∧
  (∃ hint, 4100 ≤ hint ∧ delayCall params .gap1 = .sleepAtLeast 4100 hint) ∧
  (∃ hint, 100 ≤ hint ∧ delayCall params .gap2 = .sleepAtLeast 100 hint) ∧
  (∃ hint, delayCall params .gap3 = .sleepAtLeast 0 hint) ∧
  (∃ hint, 4100 ≤ hint ∧ delayCall params .fourBit = .sleepAtLeast 4100 hint) ∧
  (∀ (P : Params) (hint : Nat),
    delayCall { P with tGap3MaxUs := hint } .gap3 = .sleepAtLeast P.tGap3MinUs hint)

/-- R21, R211: under every LineAssignment, whose six identifiers are pairwise distinct (D30), the pin at a line's identifier carries that line's latch, and writing one latch moves no other pin. -/
def Obligations.PinsCarryTheirLatches : Prop :=
  ∀ (a : LineAssignment) (s : State) (l m : Line) (v : Level),
    (a.id l = a.id m → l = m) ∧
    s.pinAt a (a.id l) = some (s.out.get l) ∧
    ({ s with out := s.out.set m v } : State).pinAt a (a.id l) =
      some (if l = m then v else s.out.get l)

/-! ## The parameters -/

/-- R26: the parameters are arguments of the step function: this instance's exec and step are those of `params`, and under any parameters a step runs the decoded instruction, or where a busy engine stands before no emission one micro-step, under the same parameters. -/
def Obligations.StepTakesTheParametersAsArguments : Prop :=
  (∀ (i : Instr) (s : State), exec i s = execWith params i s) ∧
  (∀ s : State, step s = stepWith params s) ∧
  (∀ (P : Params) (s : State) (w : CmdWord) (ws : List CmdWord) (i : Instr),
    s.rstAfter ≠ some 0 → s.status.busy = false → s.offers = w :: ws → decode (.host w) = .ok i →
    stepWith P s = execWith P i { s with cw := w, offers := ws }) ∧
  (∀ (P : Params) (s : State) (p : Stmt) (x : BusWord) (i : Instr),
    s.rstAfter ≠ some 0 → s.status.busy = true → s.position = some (p, 0) →
    p.busWord P s = some x → decode x = .ok i → stepWith P s = closeOutcome (execWith P i s)) ∧
  (∀ (P : Params) (s : State), s.rstAfter ≠ some 0 → s.status.busy = true →
    s.nextEmission P = none → stepWith P s = microStep P s) ∧
  (∀ (P : Params) (s : State),
    s.rstAfter ≠ some 0 → s.status.busy = false → s.offers = [] →
    stepWith P s = .next { s with rstAfter := s.rstAfter.map (· - 1) })
end

