-- ==== Sys2Proof/Laws/Encoding.lean ====
section
/-! SUPPORT. The fields of a packed command word (R70). -/

namespace Sys2Proof

/-- R70: which field a bit of the word lies in. -/
theorem packWord_getLsbD (op : BitVec 3) (a b : Byte) (i : Nat) :
    (packWord op a b).getLsbD i =
      if i < 8 then b.getLsbD i
      else if i - 8 < 8 then a.getLsbD (i - 8)
      else op.getLsbD (i - 8 - 8) := by
  have h : (packWord op a b).getLsbD i = (op ++ a ++ b : BitVec (3 + 8 + 8)).getLsbD i := rfl
  rw [h, BitVec.getLsbD_append, BitVec.getLsbD_append]

@[simp] theorem opField_packWord (op : BitVec 3) (a b : Byte) : opField (packWord op a b) = op := by
  refine BitVec.eq_of_getLsbD_eq fun i hi => ?_
  rw [opField, BitVec.getLsbD_extractLsb', packWord_getLsbD]
  simp [hi, show ¬ 16 + i < 8 by omega, show ¬ 16 + i - 8 < 8 by omega,
    show 16 + i - 8 - 8 = i by omega]

@[simp] theorem aField_packWord (op : BitVec 3) (a b : Byte) : aField (packWord op a b) = a := by
  refine BitVec.eq_of_getLsbD_eq fun i hi => ?_
  rw [aField, BitVec.getLsbD_extractLsb', packWord_getLsbD]
  simp [hi]

@[simp] theorem bField_packWord (op : BitVec 3) (a b : Byte) : bField (packWord op a b) = b := by
  refine BitVec.eq_of_getLsbD_eq fun i hi => ?_
  rw [bField, BitVec.getLsbD_extractLsb', packWord_getLsbD]
  simp [hi]

/-- R70: a word is its three fields. -/
theorem eq_packWord (w : CmdWord) : w = packWord (opField w) (aField w) (bField w) := by
  refine BitVec.eq_of_getLsbD_eq fun i hi => ?_
  rw [packWord_getLsbD]
  simp only [opField, aField, bField, BitVec.getLsbD_extractLsb']
  split
  · simp_all
  · split
    · simp_all
    · have h₁ : i - 8 - 8 < 3 := by omega
      have h₂ : 16 + (i - 8 - 8) = i := by omega
      simp [h₁, h₂]

/-- A mask acts field by field. -/
theorem packWord_and (o o' : BitVec 3) (a a' b b' : Byte) :
    packWord o a b &&& packWord o' a' b' = packWord (o &&& o') (a &&& a') (b &&& b') := by
  refine BitVec.eq_of_getLsbD_eq fun i hi => ?_
  simp only [BitVec.getLsbD_and, packWord_getLsbD]
  split
  · rfl
  · split <;> rfl

/-- Decoding a packed word, by its opcode. -/
theorem decodeWord_packWord (op : BitVec 3) (a b : Byte) :
    decodeWord (packWord op a b) =
      match op.toNat with
      | 0 => .init
      | 1 => .clear
      | 2 => .setcur a b
      | 3 => .putc b
      | 4 => if a.getLsbD 0 then .puts b.toNat else .putsNull
      | 5 => .wrb b (RsMode.ofBit (a.getLsbD 0))
      | 6 => .reserved6
      | _ => .reserved7 := by
  rw [decodeWord, opField_packWord, aField_packWord, bField_packWord] <;> rfl

end Sys2Proof
end

