-- ==== Sys2Proof/Laws/State.lean ====
section
/-! SUPPORT. One lemma for each field under each update of the state. -/

namespace Sys2Proof.Machine

variable (s : State)

@[simp] theorem emit_out (e : Event) : (emit e s).out = s.out := rfl
@[simp] theorem emit_status (e : Event) : (emit e s).status = s.status := rfl
@[simp] theorem emit_cw (e : Event) : (emit e s).cw = s.cw := rfl
@[simp] theorem emit_byte (e : Event) : (emit e s).byte = s.byte := rfl
@[simp] theorem emit_mode (e : Event) : (emit e s).mode = s.mode := rfl
@[simp] theorem emit_addr (e : Event) : (emit e s).addr = s.addr := rfl
@[simp] theorem emit_cnt (e : Event) : (emit e s).cnt = s.cnt := rfl
@[simp] theorem emit_upc (e : Event) : (emit e s).upc = s.upc := rfl
@[simp] theorem emit_offers (e : Event) : (emit e s).offers = s.offers := rfl
@[simp] theorem emit_payload (e : Event) : (emit e s).payload = s.payload := rfl
@[simp] theorem emit_rstAfter (e : Event) : (emit e s).rstAfter = s.rstAfter := rfl
@[simp] theorem emit_rsIn (e : Event) : (emit e s).rsIn = s.rsIn := rfl
@[simp] theorem emit_failIn (e : Event) : (emit e s).failIn = s.failIn := rfl
@[simp] theorem emit_draws (e : Event) : (emit e s).draws = s.draws := rfl
@[simp] theorem emit_trace (e : Event) : (emit e s).trace = s.trace ++ [e] := rfl

@[simp] theorem finish_out (e : ErrCode) : (finish e s).out = s.out := rfl
@[simp] theorem finish_status (e : ErrCode) : (finish e s).status = ⟨false, e⟩ := rfl
@[simp] theorem finish_cw (e : ErrCode) : (finish e s).cw = s.cw := rfl
@[simp] theorem finish_byte (e : ErrCode) : (finish e s).byte = s.byte := rfl
@[simp] theorem finish_mode (e : ErrCode) : (finish e s).mode = s.mode := rfl
@[simp] theorem finish_addr (e : ErrCode) : (finish e s).addr = s.addr := rfl
@[simp] theorem finish_cnt (e : ErrCode) : (finish e s).cnt = s.cnt := rfl
@[simp] theorem finish_upc (e : ErrCode) : (finish e s).upc = 0 := rfl
@[simp] theorem finish_offers (e : ErrCode) : (finish e s).offers = s.offers := rfl
@[simp] theorem finish_payload (e : ErrCode) : (finish e s).payload = s.payload := rfl
@[simp] theorem finish_rstAfter (e : ErrCode) : (finish e s).rstAfter = s.rstAfter := rfl
@[simp] theorem finish_rsIn (e : ErrCode) : (finish e s).rsIn = s.rsIn := rfl
@[simp] theorem finish_failIn (e : ErrCode) : (finish e s).failIn = s.failIn := rfl
@[simp] theorem finish_draws (e : ErrCode) : (finish e s).draws = s.draws := rfl
@[simp] theorem finish_trace (e : ErrCode) : (finish e s).trace = s.trace ++ [.done e] := rfl

@[simp] theorem raise_out (e : ErrCode) : (raise e s).out = s.out := rfl
@[simp] theorem raise_status (e : ErrCode) : (raise e s).status = ⟨false, e⟩ := rfl
@[simp] theorem raise_cw (e : ErrCode) : (raise e s).cw = s.cw := rfl
@[simp] theorem raise_byte (e : ErrCode) : (raise e s).byte = s.byte := rfl
@[simp] theorem raise_mode (e : ErrCode) : (raise e s).mode = s.mode := rfl
@[simp] theorem raise_addr (e : ErrCode) : (raise e s).addr = s.addr := rfl
@[simp] theorem raise_cnt (e : ErrCode) : (raise e s).cnt = s.cnt := rfl
@[simp] theorem raise_upc (e : ErrCode) : (raise e s).upc = 0 := rfl
@[simp] theorem raise_offers (e : ErrCode) : (raise e s).offers = s.offers := rfl
@[simp] theorem raise_payload (e : ErrCode) : (raise e s).payload = s.payload := rfl
@[simp] theorem raise_rstAfter (e : ErrCode) : (raise e s).rstAfter = s.rstAfter := rfl
@[simp] theorem raise_rsIn (e : ErrCode) : (raise e s).rsIn = s.rsIn := rfl
@[simp] theorem raise_failIn (e : ErrCode) : (raise e s).failIn = s.failIn := rfl
@[simp] theorem raise_draws (e : ErrCode) : (raise e s).draws = s.draws := rfl
@[simp] theorem raise_trace (e : ErrCode) : (raise e s).trace = s.trace ++ [.done e] := rfl

@[simp] theorem begin_out : (begin s).out = s.out := rfl
@[simp] theorem begin_status : (begin s).status = ⟨true, s.status.err⟩ := rfl
@[simp] theorem begin_cw : (begin s).cw = s.cw := rfl
@[simp] theorem begin_byte : (begin s).byte = s.byte := rfl
@[simp] theorem begin_mode : (begin s).mode = s.mode := rfl
@[simp] theorem begin_addr : (begin s).addr = s.addr := rfl
@[simp] theorem begin_cnt : (begin s).cnt = s.cnt := rfl
@[simp] theorem begin_upc : (begin s).upc = 1 := rfl
@[simp] theorem begin_offers : (begin s).offers = s.offers := rfl
@[simp] theorem begin_payload : (begin s).payload = s.payload := rfl
@[simp] theorem begin_rstAfter : (begin s).rstAfter = s.rstAfter := rfl
@[simp] theorem begin_rsIn : (begin s).rsIn = s.rsIn := rfl
@[simp] theorem begin_failIn : (begin s).failIn = s.failIn := rfl
@[simp] theorem begin_draws : (begin s).draws = s.draws := rfl
@[simp] theorem begin_trace : (begin s).trace = s.trace := rfl

@[simp] theorem accept_out (w : CmdWord) (ws : List CmdWord) : (accept w ws s).out = s.out := rfl
@[simp] theorem accept_status (w : CmdWord) (ws : List CmdWord) : (accept w ws s).status = s.status := rfl
@[simp] theorem accept_cw (w : CmdWord) (ws : List CmdWord) : (accept w ws s).cw = w := rfl
@[simp] theorem accept_byte (w : CmdWord) (ws : List CmdWord) : (accept w ws s).byte = s.byte := rfl
@[simp] theorem accept_mode (w : CmdWord) (ws : List CmdWord) : (accept w ws s).mode = s.mode := rfl
@[simp] theorem accept_addr (w : CmdWord) (ws : List CmdWord) : (accept w ws s).addr = s.addr := rfl
@[simp] theorem accept_cnt (w : CmdWord) (ws : List CmdWord) : (accept w ws s).cnt = s.cnt := rfl
@[simp] theorem accept_upc (w : CmdWord) (ws : List CmdWord) : (accept w ws s).upc = s.upc := rfl
@[simp] theorem accept_offers (w : CmdWord) (ws : List CmdWord) : (accept w ws s).offers = ws := rfl
@[simp] theorem accept_payload (w : CmdWord) (ws : List CmdWord) : (accept w ws s).payload = s.payload := rfl
@[simp] theorem accept_rstAfter (w : CmdWord) (ws : List CmdWord) : (accept w ws s).rstAfter = s.rstAfter := rfl
@[simp] theorem accept_rsIn (w : CmdWord) (ws : List CmdWord) : (accept w ws s).rsIn = s.rsIn := rfl
@[simp] theorem accept_failIn (w : CmdWord) (ws : List CmdWord) : (accept w ws s).failIn = s.failIn := rfl
@[simp] theorem accept_draws (w : CmdWord) (ws : List CmdWord) : (accept w ws s).draws = s.draws := rfl
@[simp] theorem accept_trace (w : CmdWord) (ws : List CmdWord) : (accept w ws s).trace = s.trace := rfl

@[simp] theorem advance_out : (advance s).out = s.out := rfl
@[simp] theorem advance_status : (advance s).status = s.status := rfl
@[simp] theorem advance_cw : (advance s).cw = s.cw := rfl
@[simp] theorem advance_byte : (advance s).byte = s.byte := rfl
@[simp] theorem advance_mode : (advance s).mode = s.mode := rfl
@[simp] theorem advance_addr : (advance s).addr = s.addr := rfl
@[simp] theorem advance_cnt : (advance s).cnt = s.cnt := rfl
@[simp] theorem advance_upc : (advance s).upc = s.upc + 1 := rfl
@[simp] theorem advance_offers : (advance s).offers = s.offers := rfl
@[simp] theorem advance_payload : (advance s).payload = s.payload := rfl
@[simp] theorem advance_rstAfter : (advance s).rstAfter = s.rstAfter := rfl
@[simp] theorem advance_rsIn : (advance s).rsIn = s.rsIn := rfl
@[simp] theorem advance_failIn : (advance s).failIn = s.failIn := rfl
@[simp] theorem advance_draws : (advance s).draws = s.draws := rfl
@[simp] theorem advance_trace : (advance s).trace = s.trace := rfl

@[simp] theorem waiting_out : (waiting s).out = s.out := rfl
@[simp] theorem waiting_status : (waiting s).status = s.status := rfl
@[simp] theorem waiting_cw : (waiting s).cw = s.cw := rfl
@[simp] theorem waiting_byte : (waiting s).byte = s.byte := rfl
@[simp] theorem waiting_mode : (waiting s).mode = s.mode := rfl
@[simp] theorem waiting_addr : (waiting s).addr = s.addr := rfl
@[simp] theorem waiting_cnt : (waiting s).cnt = s.cnt := rfl
@[simp] theorem waiting_upc : (waiting s).upc = s.upc := rfl
@[simp] theorem waiting_offers : (waiting s).offers = s.offers := rfl
@[simp] theorem waiting_payload : (waiting s).payload = s.payload := rfl
@[simp] theorem waiting_rstAfter : (waiting s).rstAfter = s.rstAfter.map (· - 1) := rfl
@[simp] theorem waiting_rsIn : (waiting s).rsIn = s.rsIn := rfl
@[simp] theorem waiting_failIn : (waiting s).failIn = s.failIn := rfl
@[simp] theorem waiting_draws : (waiting s).draws = s.draws := rfl
@[simp] theorem waiting_trace : (waiting s).trace = s.trace := rfl

@[simp] theorem applyReset_out : (applyReset s).out = Latches.reset := rfl
@[simp] theorem applyReset_status : (applyReset s).status = Status.reset := rfl
@[simp] theorem applyReset_cw : (applyReset s).cw = 0 := rfl
@[simp] theorem applyReset_byte : (applyReset s).byte = 0 := rfl
@[simp] theorem applyReset_mode : (applyReset s).mode = .command := rfl
@[simp] theorem applyReset_addr : (applyReset s).addr = 0 := rfl
@[simp] theorem applyReset_cnt : (applyReset s).cnt = 0 := rfl
@[simp] theorem applyReset_upc : (applyReset s).upc = 0 := rfl
@[simp] theorem applyReset_offers : (applyReset s).offers = s.offers := rfl
@[simp] theorem applyReset_payload : (applyReset s).payload = s.payload := rfl
@[simp] theorem applyReset_rstAfter : (applyReset s).rstAfter = none := rfl
@[simp] theorem applyReset_rsIn : (applyReset s).rsIn = s.rsIn := rfl
@[simp] theorem applyReset_failIn : (applyReset s).failIn = s.failIn := rfl
@[simp] theorem applyReset_draws : (applyReset s).draws = s.draws := rfl
@[simp] theorem applyReset_trace : (applyReset s).trace = s.trace ++ [.reset] := rfl

end Sys2Proof.Machine
end

