-- ==== Sys2Proof/Laws/Ops.lean ====
section
/-! SUPPORT. One lemma for each shared operation: all it can do. -/

namespace Sys2Proof.Machine

/-! The latches (R21). -/

@[simp] theorem Latches.get_set_same (l : Latches) (n : Line) (v : Level) :
    (l.set n v).get n = v := by cases n <;> rfl

theorem Latches.get_set_other (l : Latches) {n m : Line} (v : Level) (h : m ≠ n) :
    (l.set n v).get m = l.get m := by
  cases n <;> cases m <;> first | rfl | exact absurd rfl h

theorem Latches.set_comm (l : Latches) {n m : Line} (v w : Level) (h : n ≠ m) :
    (l.set n v).set m w = (l.set m w).set n v := by
  cases n <;> cases m <;> first | rfl | exact absurd rfl h

/-! `Run`. -/

@[simp] theorem Run.bind_going {α β : Type} (a : α) (f : α → Run β) :
    (Run.going a).bind f = f a := rfl

@[simp] theorem Run.bind_halted {α β : Type} (s : State) (f : α → Run β) :
    (Run.halted s : Run α).bind f = .halted s := rfl

@[simp] theorem Run.map_going {α β : Type} (f : α → β) (a : α) :
    (Run.going a).map f = .going (f a) := rfl

@[simp] theorem Run.map_halted {α β : Type} (f : α → β) (s : State) :
    (Run.halted s : Run α).map f = .halted s := rfl

@[simp] theorem Run.state_going (s : State) : (Run.going s).state = s := rfl

@[simp] theorem Run.state_halted (s : State) : (Run.halted s).state = s := rfl

theorem Run.bind_assoc {α β γ : Type} (r : Run α) (f : α → Run β) (g : β → Run γ) :
    (r.bind f).bind g = r.bind fun a => (f a).bind g := by cases r <;> rfl

/-! The collaborators (R202, R210, R211). -/

theorem collabOutcome_of_infallible {P : Params} (h : P.collabFaults = false) (s : State) :
    collabOutcome P s = (false, s) := by simp [collabOutcome, h]

/-- All `attempt` can do: the effect, or the failure status with no effect. -/
theorem attempt_cases {α : Type} (P : Params) (f : State → α) (s : State) :
    attempt P f s = .going (f (collabOutcome P s).2) ∨
      attempt P f s = .halted (raise .hardwareUnavailable (collabOutcome P s).2) := by
  unfold attempt
  split
  · exact .inr rfl
  · exact .inl rfl

@[simp] theorem attempt_of_infallible {α : Type} {P : Params} (h : P.collabFaults = false)
    (f : State → α) (s : State) : attempt P f s = .going (f s) := by
  simp [attempt, collabOutcome_of_infallible h]

theorem driveLine_of_infallible {P : Params} (h : P.collabFaults = false) (l : Line) (v : Level)
    (s : State) :
    driveLine P l v s =
      .going { s with out := s.out.set l v, trace := s.trace ++ [.drive l v] } := by
  simp only [driveLine, attempt_of_infallible h]; rfl

theorem waitFor_of_infallible {P : Params} (h : P.collabFaults = false) (k : WaitClass)
    (s : State) :
    waitFor P k s = .going { s with trace := s.trace ++ [.wait k (P.minUs k)] } := by
  simp only [waitFor, attempt_of_infallible h]; rfl

theorem rsReadBack_of_loopback {P : Params} (h : P.rsLoopback = true) (s : State) :
    rsReadBack P s = (s.out.rs, s) := by simp [rsReadBack, h]

theorem rsReadBack_of_input {P : Params} (h : P.rsLoopback = false) {s : State} {v : Level}
    {vs : List Level} (hs : s.rsIn = v :: vs) : rsReadBack P s = (v, { s with rsIn := vs }) := by
  simp [rsReadBack, h, hs]

/-- The two events of a settle delay, whatever RS reads back as. -/
theorem settleEvents_eq (P : Params) (r : Level) :
    settleEvents P r = [.sample .rs r, .wait (settleClass P r) (P.minUs (settleClass P r))] := by
  unfold settleEvents settleClass
  split <;> rfl

/-- All a settle delay does when the collaborators do not fail (R102). -/
theorem settleDelay_of_infallible {P : Params} (h : P.collabFaults = false) (s : State) :
    settleDelay P s =
      .going { (rsReadBack P s).2 with
        trace := (rsReadBack P s).2.trace ++ settleEvents P (rsReadBack P s).1 } := by
  simp only [settleDelay, gpioGetRs, attempt_of_infallible h, Run.bind_going,
    waitFor_of_infallible h, settleEvents_eq, emit, List.append_assoc]
  rfl

theorem settleDelay_of_ideal {P : Params} (h : IdealCollaborators P) (s : State) :
    settleDelay P s = .going { s with trace := s.trace ++ settleEvents P s.out.rs } := by
  rw [settleDelay_of_infallible h.1, rsReadBack_of_loopback h.2]

/-- The machine's own parameters have collaborators that do not fail and a loopback. -/
theorem params_ideal : IdealCollaborators params := ⟨rfl, rfl⟩

/-! The machine's own parameters (R6), as numbers. -/

@[simp] theorem params_nibFs8 : params.nibFs8 = 0b0011 := rfl
@[simp] theorem params_nibFs4 : params.nibFs4 = 0b0010 := rfl
@[simp] theorem params_cmdFuncset : params.cmdFuncset = 0x28 := rfl
@[simp] theorem params_cmdDispOff : params.cmdDispOff = 0x08 := rfl
@[simp] theorem params_cmdClear : params.cmdClear = 0x01 := rfl
@[simp] theorem params_cmdEntry : params.cmdEntry = 0x06 := rfl
@[simp] theorem params_cmdDispOn : params.cmdDispOn = 0x0C := rfl
@[simp] theorem params_cmdSetDdram : params.cmdSetDdram = 0x80 := rfl
@[simp] theorem params_row2Base : params.row2Base = 0x40 := rfl
@[simp] theorem params_nRows : params.nRows = 2 := rfl

/-! The address mapper (R180, R184). -/

/-- With `N_ROWS` = 2 the rows of the mapper are 1 and 2. -/
theorem distinguished_iff {P : Params} (h : P.nRows = 2) (row : Byte) :
    distinguished P row = true ↔ row = 1 ∨ row = 2 := by
  simp only [distinguished, h, decide_eq_true_eq, ← BitVec.toNat_inj]
  show _ ↔ row.toNat = 1 ∨ row.toNat = 2
  omega

/-- R184: with `N_ROWS` = 2 exactly the rows other than 1 and 2 are refused, and only with `STRICT_ROW`. -/
theorem rowRefused_iff {P : Params} (h : P.nRows = 2) (row : Byte) :
    rowRefused P row = true ↔ P.strictRow = true ∧ row ≠ 1 ∧ row ≠ 2 := by
  have := distinguished_iff h row
  simp only [rowRefused, Bool.and_eq_true, Bool.not_eq_true', ← Bool.not_eq_true, this, not_or,
    ne_eq]

/-- R180 as the spec writes it. -/
theorem map_eq {P : Params} (h : P.nRows = 2) (row column : Byte) :
    map P row column =
      if row = 1 then column - 1 else if row = 2 then P.row2Base + (column - 1) else 0 := by
  unfold map
  by_cases hr : distinguished P row = true
  · simp [hr]
  · have h₁ : ¬(row = 1 ∨ row = 2) := fun e => hr ((distinguished_iff h row).mpr e)
    have h₂ : distinguished P row = false := by simpa using hr
    obtain ⟨h₃, h₄⟩ := not_or.mp h₁
    rw [if_pos h₂, if_neg h₃, if_neg h₄]

end Sys2Proof.Machine
end

