-- ==== Sys2Proof/Laws/Transport.lean ====
section
/-! SUPPORT. What the transport's micro-steps and procedures do (R100 to R104), once, for every later proof. -/

namespace Sys2Proof.Machine

theorem runMicros_append (P : Params) (ms ns : List Micro) (s : State) :
    runMicros P (ms ++ ns) s = (runMicros P ms s).bind (runMicros P ns) := by
  induction ms generalizing s with
  | nil => rfl
  | cons m ms ih =>
    simp only [List.cons_append, runMicros, Run.bind_assoc]
    congr 1
    exact funext ih

theorem micros_append (p q : List Stmt) : micros (p ++ q) = micros p ++ micros q := by
  simp [micros]

theorem micros_cons (p : Stmt) (ps : List Stmt) : micros (p :: ps) = p.expand ++ micros ps := by
  simp [micros]

@[simp] theorem micros_nil : micros [] = [] := rfl

/-- All a micro-step can do: the reset that is due, or the primitive. -/
theorem perform_cases (P : Params) (m : Micro) (s : State) :
    (s.rstAfter = some 0 ∧ perform P m s = .halted (applyReset s)) ∨
      (s.rstAfter ≠ some 0 ∧ perform P m s = (act P m (waiting s)).map advance) := by
  unfold perform
  split
  · exact .inl ⟨‹_›, rfl⟩
  · exact .inr ⟨‹_›, rfl⟩

theorem NoResetWithin.not_due {n : Nat} {s : State} (h : NoResetWithin (n + 1) s) :
    s.rstAfter ≠ some 0 := fun e => by have := h 0 e; omega

theorem NoResetWithin.mono {m n : Nat} {s : State} (h : NoResetWithin n s) (hmn : m ≤ n) :
    NoResetWithin m s := fun k hk => le_trans hmn (h k hk)

/-- Where no reset is due a micro-step is its primitive. -/
theorem perform_of_clear {P : Params} {m : Micro} {s : State} (h : s.rstAfter ≠ some 0) :
    perform P m s = (act P m (waiting s)).map advance := by simp [perform, h]

theorem progressed_progressed {m n k : Nat} (hk : m + n = k) (es fs : List Event) (s : State) :
    progressed n fs (progressed m es s) = progressed k (es ++ fs) s := by
  subst hk
  simp [progressed, Nat.add_assoc, Nat.sub_sub, Function.comp_def]

theorem NoResetWithin.progressed {m n : Nat} {s : State} (es : List Event)
    (h : NoResetWithin (m + n) s) : NoResetWithin n (progressed m es s) := by
  intro k hk
  simp only [Machine.progressed, Option.map_eq_some_iff] at hk
  obtain ⟨a, ha, rfl⟩ := hk
  have := h a ha
  omega

/-- The effect of a micro-step of the transport on the latches, and its events, when the collaborators are ideal. -/
theorem perform_drive {P : Params} (hP : IdealCollaborators P) {s : State}
    (h : NoResetWithin 1 s) (l : Line) (v : Level) :
    perform P (.drive l v) s =
      .going (progressed 1 [.drive l v] { s with out := s.out.set l v }) := by
  rw [perform_of_clear h.not_due]
  simp only [act, driveLine_of_infallible hP.1]
  rfl

theorem perform_wait {P : Params} (hP : IdealCollaborators P) {s : State}
    (h : NoResetWithin 1 s) (k : WaitClass) :
    perform P (.wait k) s = .going (progressed 1 [.wait k (P.minUs k)] s) := by
  rw [perform_of_clear h.not_due]
  simp only [act, waitFor_of_infallible hP.1]
  rfl

theorem perform_settle {P : Params} (hP : IdealCollaborators P) {s : State}
    (h : NoResetWithin 1 s) :
    perform P .settle s = .going (progressed 1 (settleEvents P s.out.rs) s) := by
  rw [perform_of_clear h.not_due]
  simp only [act, settleDelay_of_ideal hP]
  rfl

theorem perform_settleCount {P : Params} (hP : IdealCollaborators P) {s : State}
    (h : NoResetWithin 1 s) :
    perform P .settleCount s =
      .going (progressed 1 (settleEvents P s.out.rs) { s with cnt := s.cnt - 1 }) := by
  rw [perform_of_clear h.not_due]
  simp only [act, settleDelay_of_ideal hP]
  rfl

theorem perform_dataBit {P : Params} (hP : IdealCollaborators P) {s : State}
    (h : NoResetWithin 1 s) (l : Line) (src : NibSrc) (i : Nat) :
    perform P (.dataBit l src i) s =
      .going (progressed 1 [.drive l (bitLevel (src.value P s) i)]
        { s with out := s.out.set l (bitLevel (src.value P s) i) }) := by
  rw [perform_of_clear h.not_due]
  simp only [act, driveLine_of_infallible hP.1]
  cases src <;> rfl

theorem perform_startByte {P : Params} (hP : IdealCollaborators P) {s : State}
    (h : NoResetWithin 1 s) (src : ByteSrc) (m : RsMode) :
    perform P (.startByte src m) s =
      .going (progressed 1 [.drive .rs m.level]
        { s with byte := src.value P s, mode := m, out := s.out.set .rs m.level }) := by
  rw [perform_of_clear h.not_due]
  simp only [act, driveLine_of_infallible hP.1]
  cases src <;> rfl

theorem perform_startStringByte {P : Params} (hP : IdealCollaborators P) {s : State}
    (h : NoResetWithin 1 s) {b : Byte} {bs : List Byte} (hb : s.payload = b :: bs) :
    perform P .startStringByte s =
      .going (progressed 1 [.drive .rs .high]
        { s with payload := bs, byte := b, mode := .character, out := s.out.set .rs .high }) := by
  rw [perform_of_clear h.not_due]
  simp only [act, waiting_payload, hb, driveLine_of_infallible hP.1]
  rfl

/-- R62: a string byte that has not arrived is waited for, and nothing is driven. -/
theorem perform_startStringByte_stalled {P : Params} {s : State}
    (h : NoResetWithin 1 s) (hb : s.payload = []) :
    perform P .startStringByte s = .halted (waiting s) := by
  rw [perform_of_clear h.not_due]
  simp only [act, waiting_payload, hb]
  rfl

theorem perform_openCursor {P : Params} (hP : IdealCollaborators P) {s : State}
    (h : NoResetWithin 1 s) (row column : Byte) :
    perform P (.openCursor row column) s =
      .going (progressed 1 [.drive .rs .low]
        { s with addr := map P row column, out := s.out.set .rs .low }) := by
  rw [perform_of_clear h.not_due]
  simp only [act, driveLine_of_infallible hP.1]
  rfl

theorem perform_openString {P : Params} (hP : IdealCollaborators P) {s : State}
    (h : NoResetWithin 1 s) (n : Nat) :
    perform P (.openString n) s =
      .going (progressed 1 [.drive .rs .high]
        { s with cnt := n, out := s.out.set .rs .high }) := by
  rw [perform_of_clear h.not_due]
  simp only [act, driveLine_of_infallible hP.1]
  rfl

theorem progressed_zero (s : State) : progressed 0 [] s = s := by
  simp [progressed]

/-- One more micro-step that goes on. -/
theorem runMicros_cons {P : Params} {m : Micro} {ms : List Micro} {s t : State}
    (h : perform P m s = .going t) : runMicros P (m :: ms) s = runMicros P ms t := by
  simp [runMicros, h]

/-- The reset input, when it is not due within `n` micro-steps. -/
theorem NoResetWithin.cases {n : Nat} {s : State} (h : NoResetWithin n s) :
    s.rstAfter = none ∨ ∃ k, s.rstAfter = some (k + n) := by
  cases hs : s.rstAfter with
  | none => exact .inl rfl
  | some k => exact .inr ⟨k - n, by have := h k hs; congr 1; omega⟩

theorem NoResetWithin.of_rstAfter {n : Nat} {s t : State} (h : NoResetWithin n s)
    (e : t.rstAfter = s.rstAfter) : NoResetWithin n t := fun k hk => h k (e ▸ hk)

/-- R100: the latches after DriveNibble. -/
def Latches.withNibble (l : Latches) (n : Nibble) : Latches :=
  { l with d4 := bitLevel n 0, d5 := bitLevel n 1, d6 := bitLevel n 2, d7 := bitLevel n 3 }

/-- R101: the latches after PulseEN. -/
def Latches.strobed (l : Latches) : Latches := { l with en := .low }

@[simp] theorem Latches.strobed_withNibble (l : Latches) (n : Nibble) :
    (l.withNibble n).strobed = restingLatches l.rs n := rfl

@[simp] theorem restingLatches_withNibble (r : Level) (n n' : Nibble) :
    (restingLatches r n).withNibble n' = restingLatches r n' := rfl

@[simp] theorem restingLatches_rs (r : Level) (n : Nibble) : (restingLatches r n).rs = r := rfl

@[simp] theorem restingLatches_en (r : Level) (n : Nibble) : (restingLatches r n).en = .low := rfl

/-- Pieces in sequence, each of which goes on. -/
theorem runMicros_seq {P : Params} {ms ns : List Micro} {s t : State}
    (h : runMicros P ms s = .going t) : runMicros P (ms ++ ns) s = runMicros P ns t := by
  rw [runMicros_append, h, Run.bind_going]

/-- What holds of a state holds of it after `m` micro-steps, if they are counted. -/
theorem NoResetWithin.after {m n k : Nat} {s t : State} (h : NoResetWithin k s)
    (hk : m + n ≤ k) (es : List Event) (e : t.rstAfter = s.rstAfter) :
    NoResetWithin n (Machine.progressed m es t) :=
  NoResetWithin.progressed es ((h.mono hk).of_rstAfter e)

@[simp] theorem runMicros_nil (P : Params) (s : State) : runMicros P [] s = .going s := rfl

/-- The state after the string bytes `bs` have been sent (R154, R32). -/
def sentString (bs : List Byte) (s : State) : State :=
  match bs.getLast? with
  | none => s
  | some b =>
    { s with
      byte := b, mode := .character, cnt := s.cnt - bs.length
      out := restingLatches .high (lowNibble b) }

/-- A relation between states that each micro-step keeps is kept by a run of them. -/
theorem runMicros_keeps {P : Params} {R : State → State → Prop} (refl : ∀ s, R s s)
    (trans : ∀ s t u, R s t → R t u → R s u) {ms : List Micro}
    (h : ∀ m ∈ ms, ∀ s, R s (perform P m s).state) (s : State) :
    R s (runMicros P ms s).state := by
  induction ms generalizing s with
  | nil => exact refl s
  | cons m ms ih =>
    have h₁ := h m (by simp) s
    rw [runMicros]
    cases e : perform P m s with
    | halted t => rw [e] at h₁; exact h₁
    | going t =>
      rw [e] at h₁
      exact trans _ _ _ h₁ (ih (fun n hn => h n (by simp [hn])) t)

/-- All an operation can do: its `Done(OK)`, or what halted it. -/
theorem operate_cases (P : Params) (p : List Stmt) (s : State) :
    (∃ t, runMicros P (micros p) (begin s) = .going t ∧ operate P p s = .next (finish .ok t)) ∨
      (∃ t, runMicros P (micros p) (begin s) = .halted t ∧ operate P p s = .next t) := by
  unfold operate
  cases runMicros P (micros p) (begin s) with
  | going t => exact .inl ⟨t, rfl, rfl⟩
  | halted t => exact .inr ⟨t, rfl, rfl⟩

/-- An operation always answers a next state. -/
theorem operate_safe (P : Params) (p : List Stmt) (s : State) : Safe (operate P p s) := by
  rcases operate_cases P p s with ⟨t, -, h⟩ | ⟨t, -, h⟩ <;> exact ⟨_, h⟩

theorem NoResetWithin.begin {n : Nat} {s : State} (h : NoResetWithin n s) :
    NoResetWithin n (Machine.begin s) := h

/-- An operation whose micro-steps all go on. -/
theorem operate_of_going {P : Params} {p : List Stmt} {s t : State}
    (h : runMicros P (micros p) (begin s) = .going t) : operate P p s = .next (finish .ok t) := by
  simp [operate, h]

end Sys2Proof.Machine
end

