-- ==== Sys2Proof/Laws/Ideal.lean ====
section
/-! SUPPORT. Micro-steps with ideal collaborators as two plain functions of the latches: their effect and their events. One lemma each says what a sequence comes to when nothing cuts it short, when a reset lands inside it, and when a string byte is missing. -/

namespace Sys2Proof.Machine

variable {P : Params}

/-- What a micro-step writes, apart from UPC, the reset input and the trace. -/
def effect (P : Params) (m : Micro) (s : State) : State :=
  match m with
  | .drive l v => { s with out := s.out.set l v }
  | .wait _ | .settle => s
  | .settleCount => { s with cnt := s.cnt - 1 }
  | .startByte src m =>
    { s with byte := src.value P s, mode := m, out := s.out.set .rs m.level }
  | .startStringByte =>
    { s with
      payload := s.payload.tail, byte := s.payload.headD s.byte, mode := .character
      out := s.out.set .rs .high }
  | .dataBit l src i => { s with out := s.out.set l (bitLevel (src.value P s) i) }
  | .openCursor row column => { s with addr := map P row column, out := s.out.set .rs .low }
  | .openString n => { s with cnt := n, out := s.out.set .rs .high }

/-- What a micro-step appends to the full trace. -/
def microEvents (P : Params) (m : Micro) (s : State) : List Event :=
  match m with
  | .drive l v => [.drive l v]
  | .wait k => [.wait k (P.minUs k)]
  | .settle | .settleCount => settleEvents P s.out.rs
  | .startByte _ m => [.drive .rs m.level]
  | .startStringByte => [.drive .rs .high]
  | .dataBit l src i => [.drive l (bitLevel (src.value P s) i)]
  | .openCursor _ _ => [.drive .rs .low]
  | .openString _ => [.drive .rs .high]

/-- What a sequence of micro-steps writes. -/
def effects (P : Params) : List Micro → State → State
  | [], s => s
  | m :: ms, s => effects P ms (effect P m s)

/-- What a sequence of micro-steps appends to the full trace. -/
def eventsOf (P : Params) : List Micro → State → List Event
  | [], _ => []
  | m :: ms, s => microEvents P m s ++ eventsOf P ms (effect P m s)

/-- How many string bytes a sequence takes. -/
def bytesTaken (ms : List Micro) : Nat := ms.count .startStringByte

@[simp] theorem effects_nil (s : State) : effects P [] s = s := rfl

@[simp] theorem effects_cons (m : Micro) (ms : List Micro) (s : State) :
    effects P (m :: ms) s = effects P ms (effect P m s) := rfl

@[simp] theorem eventsOf_nil (P : Params) (s : State) : eventsOf P [] s = [] := rfl

@[simp] theorem eventsOf_cons (P : Params) (m : Micro) (ms : List Micro) (s : State) :
    eventsOf P (m :: ms) s = microEvents P m s ++ eventsOf P ms (effect P m s) := rfl

theorem effects_append (ms ns : List Micro) (s : State) :
    effects P (ms ++ ns) s = effects P ns (effects P ms s) := by
  induction ms generalizing s with
  | nil => rfl
  | cons m ms ih => exact ih _

theorem eventsOf_append (P : Params) (ms ns : List Micro) (s : State) :
    eventsOf P (ms ++ ns) s = eventsOf P ms s ++ eventsOf P ns (effects P ms s) := by
  induction ms generalizing s with
  | nil => rfl
  | cons m ms ih => simp [ih]

/-! UPC, the reset input and the trace play no part in either. -/

@[simp] theorem effect_progressed (m : Micro) (n : Nat) (es : List Event) (s : State) :
    effect P m (progressed n es s) = progressed n es (effect P m s) := by
  cases m with
  | startByte src _ => cases src <;> rfl
  | dataBit _ src _ => cases src <;> rfl
  | _ => rfl

@[simp] theorem microEvents_progressed (P : Params) (m : Micro) (n : Nat) (es : List Event)
    (s : State) : microEvents P m (progressed n es s) = microEvents P m s := by
  cases m with
  | dataBit _ src _ => cases src <;> rfl
  | _ => rfl

@[simp] theorem effects_progressed (ms : List Micro) (n : Nat) (es : List Event) (s : State) :
    effects P ms (progressed n es s) = progressed n es (effects P ms s) := by
  induction ms generalizing s with
  | nil => rfl
  | cons m ms ih => simp [ih]

@[simp] theorem eventsOf_progressed (P : Params) (ms : List Micro) (n : Nat) (es : List Event)
    (s : State) : eventsOf P ms (progressed n es s) = eventsOf P ms s := by
  induction ms generalizing s with
  | nil => rfl
  | cons m ms ih => simp [ih]

@[simp] theorem progressed_rstAfter (n : Nat) (es : List Event) (s : State) :
    (progressed n es s).rstAfter = s.rstAfter.map (· - n) := rfl

@[simp] theorem progressed_payload (n : Nat) (es : List Event) (s : State) :
    (progressed n es s).payload = s.payload := rfl

@[simp] theorem effect_rstAfter (m : Micro) (s : State) : (effect P m s).rstAfter = s.rstAfter := by
  cases m <;> rfl

@[simp] theorem effect_trace (m : Micro) (s : State) : (effect P m s).trace = s.trace := by
  cases m <;> rfl

@[simp] theorem effect_upc (m : Micro) (s : State) : (effect P m s).upc = s.upc := by cases m <;> rfl

@[simp] theorem effect_status (m : Micro) (s : State) : (effect P m s).status = s.status := by
  cases m <;> rfl

@[simp] theorem effect_cw (m : Micro) (s : State) : (effect P m s).cw = s.cw := by cases m <;> rfl

@[simp] theorem effect_offers (m : Micro) (s : State) : (effect P m s).offers = s.offers := by
  cases m <;> rfl

@[simp] theorem effect_rsIn (m : Micro) (s : State) : (effect P m s).rsIn = s.rsIn := by
  cases m <;> rfl

@[simp] theorem effect_failIn (m : Micro) (s : State) : (effect P m s).failIn = s.failIn := by
  cases m <;> rfl

@[simp] theorem effect_draws (m : Micro) (s : State) : (effect P m s).draws = s.draws := by
  cases m <;> rfl

/-- All a micro-step does with ideal collaborators, where no reset is due and no string byte is missing. -/
theorem perform_ideal {P : Params} (hP : IdealCollaborators P) {m : Micro} {s : State}
    (h : s.rstAfter ≠ some 0) (hb : m = .startStringByte → s.payload ≠ []) :
    perform P m s = .going (progressed 1 (microEvents P m s) (effect P m s)) := by
  have h₁ : NoResetWithin 1 s := by
    rintro (_ | k) hk
    · exact absurd hk h
    · omega
  cases m with
  | drive l v => exact perform_drive hP h₁ l v
  | wait k => exact perform_wait hP h₁ k
  | settle => exact perform_settle hP h₁
  | settleCount => exact perform_settleCount hP h₁
  | startByte src m => exact perform_startByte hP h₁ src m
  | startStringByte =>
    obtain ⟨b, bs, e⟩ := List.exists_cons_of_ne_nil (hb rfl)
    rw [perform_startStringByte hP h₁ e]
    simp [effect, microEvents, e]
  | dataBit l src i => exact perform_dataBit hP h₁ l src i
  | openCursor row column => exact perform_openCursor hP h₁ row column
  | openString n => exact perform_openString hP h₁ n

/-- The bytes that are left after a micro-step that found its own. -/
theorem bytesTaken_effect {m : Micro} {ms : List Micro} {s : State}
    (h : bytesTaken (m :: ms) ≤ s.payload.length) :
    (m = .startStringByte → s.payload ≠ []) ∧ bytesTaken ms ≤ (effect P m s).payload.length := by
  cases m <;> simp_all [bytesTaken, effect]
  · constructor
    · rintro e
      simp [e] at h
    · omega

/-- A sequence that nothing cuts short. -/
theorem runMicros_ideal {P : Params} (hP : IdealCollaborators P) {ms : List Micro} {s : State}
    (h : NoResetWithin ms.length s) (hb : bytesTaken ms ≤ s.payload.length) :
    runMicros P ms s = .going (progressed ms.length (eventsOf P ms s) (effects P ms s)) := by
  induction ms generalizing s with
  | nil => simp [progressed_zero]
  | cons m ms ih =>
    obtain ⟨h₁, h₂⟩ := bytesTaken_effect hb
    rw [runMicros_cons (perform_ideal hP (h.not_due) h₁)]
    rw [ih (h.after (m := 1) (n := ms.length) (by simp; omega) _ (effect_rstAfter m s)) h₂]
    rw [effects_progressed, eventsOf_progressed, progressed_progressed (k := (m :: ms).length)
      (by simp; omega)]
    rfl

/-- A sequence with a reset inside it (R232). -/
theorem runMicros_reset {P : Params} (hP : IdealCollaborators P) {ms : List Micro} {s : State}
    {k : Nat} (h : s.rstAfter = some k) (hk : k < ms.length)
    (hb : bytesTaken ms ≤ s.payload.length) :
    runMicros P ms s =
      .halted (applyReset (progressed k (eventsOf P (ms.take k) s) (effects P (ms.take k) s))) := by
  induction ms generalizing s k with
  | nil => simp at hk
  | cons m ms ih =>
    obtain ⟨h₁, h₂⟩ := bytesTaken_effect hb
    cases k with
    | zero => simp [runMicros, perform, h, progressed_zero]
    | succ k =>
      rw [runMicros_cons (perform_ideal hP (by simp [h]) h₁)]
      rw [ih (s := progressed 1 (microEvents P m s) (effect P m s)) (k := k) (by simp [h])
        (by simpa using hk) h₂]
      rw [effects_progressed, eventsOf_progressed, progressed_progressed (k := k + 1) (by omega)]
      rfl

/-- Up to a string byte that is missing, and not beyond (R62). -/
theorem runMicros_starved {P : Params} (hP : IdealCollaborators P) {ms ns : List Micro} {s : State}
    (h : NoResetWithin (ms.length + 1) s) (hb : bytesTaken ms ≤ s.payload.length)
    (he : (effects P ms s).payload = []) :
    runMicros P (ms ++ .startStringByte :: ns) s =
      .halted (waiting (progressed ms.length (eventsOf P ms s) (effects P ms s))) := by
  rw [runMicros_seq (runMicros_ideal hP (h.mono (by omega)) hb)]
  have h₁ : NoResetWithin 1 (progressed ms.length (eventsOf P ms s) (effects P ms s)) := by
    refine NoResetWithin.after (k := ms.length + 1) (s := s) h (by omega) _ ?_
    clear h hb he
    induction ms generalizing s with
    | nil => rfl
    | cons m ms ih => rw [effects_cons, ih, effect_rstAfter]
  simp [runMicros, perform_startStringByte_stalled h₁ he]

/-- Where a run of micro-steps leaves off: at its end, at a reset (R232), or at a string byte that is missing (R62). -/
theorem runMicros_outcome {P : Params} (hP : IdealCollaborators P) (ms : List Micro) (s : State) :
    runMicros P ms s = .going (progressed ms.length (eventsOf P ms s) (effects P ms s)) ∨
      ∃ k < ms.length,
        let t := progressed k (eventsOf P (ms.take k) s) (effects P (ms.take k) s)
        runMicros P ms s = .halted (applyReset t) ∧ t.rstAfter = some 0 ∨
          runMicros P ms s = .halted (waiting t) ∧ ms[k]? = some .startStringByte ∧
            t.payload = [] := by
  induction ms generalizing s with
  | nil => exact .inl (by simp [progressed_zero])
  | cons m ms ih =>
    by_cases hr : s.rstAfter = some 0
    · exact .inr ⟨0, by simp, .inl ⟨by simp [runMicros, perform, hr, progressed_zero], by simp [hr]⟩⟩
    by_cases hb : m = .startStringByte ∧ s.payload = []
    · refine .inr ⟨0, by simp, .inr ⟨?_, by simp [hb.1], by simp [hb.2]⟩⟩
      rw [runMicros, hb.1, perform_of_clear hr]
      simp [act, hb.2, progressed_zero]
    · have e := perform_ideal hP hr fun e e' => hb ⟨e, e'⟩
      rw [runMicros_cons e]
      rcases ih (progressed 1 (microEvents P m s) (effect P m s)) with h | ⟨k, hk, h⟩
      · left
        rw [h, effects_progressed, eventsOf_progressed,
          progressed_progressed (k := ms.length + 1) (by omega)]
        rfl
      · refine .inr ⟨k + 1, by simpa using hk, ?_⟩
        rw [effects_progressed, eventsOf_progressed, progressed_progressed (k := k + 1) (by omega)]
          at h
        exact h

/-! Statement by statement: the effect and the events of each, with no procedure expanded. -/

theorem effects_micros_cons (p : Stmt) (ps : List Stmt) (s : State) :
    effects P (micros (p :: ps)) s = effects P (micros ps) (effects P p.expand s) := by
  rw [micros_cons, effects_append]

theorem eventsOf_micros_cons (P : Params) (p : Stmt) (ps : List Stmt) (s : State) :
    eventsOf P (micros (p :: ps)) s =
      eventsOf P p.expand s ++ eventsOf P (micros ps) (effects P p.expand s) := by
  rw [micros_cons, eventsOf_append]

theorem effects_drive (l : Line) (v : Level) (s : State) :
    effects P (Stmt.drive l v).expand s = { s with out := s.out.set l v } := rfl

theorem eventsOf_drive (P : Params) (l : Line) (v : Level) (s : State) :
    eventsOf P (Stmt.drive l v).expand s = [.drive l v] := rfl

theorem effects_wait (k : WaitClass) (s : State) : effects P (Stmt.wait k).expand s = s := rfl

theorem eventsOf_wait (P : Params) (k : WaitClass) (s : State) :
    eventsOf P (Stmt.wait k).expand s = [.wait k (P.minUs k)] := rfl

theorem effects_raw (src : NibSrc) (s : State) :
    effects P (Stmt.raw src).expand s =
      { s with out := restingLatches s.out.rs (src.value P s) } := by
  cases src <;> rfl

theorem eventsOf_raw (P : Params) (src : NibSrc) (s : State) :
    eventsOf P (Stmt.raw src).expand s = rawEvents P (src.value P s) := by
  cases src <;> rfl

theorem effects_driveNibble (src : NibSrc) (s : State) :
    effects P (driveNibble src) s = { s with out := s.out.withNibble (src.value P s) } := by
  cases src <;> rfl

theorem eventsOf_driveNibble (P : Params) (src : NibSrc) (s : State) :
    eventsOf P (driveNibble src) s = nibbleEvents (src.value P s) := by
  cases src <;> rfl

theorem effects_pulseEn (s : State) : effects P pulseEn s = { s with out := s.out.strobed } := rfl

theorem eventsOf_pulseEn (P : Params) (s : State) : eventsOf P pulseEn s = pulseEvents P := rfl

/-- R104 steps 2 to 6; `last` is the second settle delay. -/
theorem effects_sendByte (last : Micro) (s : State) :
    effects P (sendByte last) s =
      effect P last { s with out := restingLatches s.out.rs (lowNibble s.byte) } := by
  simp only [sendByte, effects_append, effects_driveNibble, effects_pulseEn, effects_cons,
    effects_nil]
  rfl

theorem eventsOf_sendByte (P : Params) (last : Micro) (s : State) :
    eventsOf P (sendByte last) s =
      nibbleEvents (highNibble s.byte) ++ pulseEvents P ++ settleEvents P s.out.rs
        ++ nibbleEvents (lowNibble s.byte) ++ pulseEvents P
        ++ microEvents P last { s with out := restingLatches s.out.rs (lowNibble s.byte) } := by
  simp only [sendByte, effects_append, eventsOf_append, effects_driveNibble,
    eventsOf_driveNibble, effects_pulseEn, eventsOf_pulseEn, effects_cons, effects_nil, eventsOf_cons, eventsOf_nil, List.append_nil]
  rfl

theorem effects_write (src : ByteSrc) (m : RsMode) (s : State) :
    effects P (Stmt.write src m).expand s =
      { s with
        byte := src.value P s, mode := m
        out := restingLatches m.level (lowNibble (src.value P s)) } := by
  rw [Stmt.expand, effects_cons, effects_sendByte]
  rfl

theorem eventsOf_write (P : Params) (src : ByteSrc) (m : RsMode) (s : State) :
    eventsOf P (Stmt.write src m).expand s = byteEvents P (src.value P s) m := by
  rw [Stmt.expand, eventsOf_cons, eventsOf_sendByte]
  simp [effect, microEvents, Latches.set, byteEvents, sampledByteEvents]

theorem effects_openCursor (row column : Byte) (s : State) :
    effects P (Stmt.openCursor row column).expand s =
      { s with addr := map P row column, out := s.out.set .rs .low } := rfl

theorem eventsOf_openCursor (P : Params) (row column : Byte) (s : State) :
    eventsOf P (Stmt.openCursor row column).expand s = [.drive .rs .low] := rfl

theorem effects_openString (n : Nat) (s : State) :
    effects P (Stmt.openString n).expand s = { s with cnt := n, out := s.out.set .rs .high } := rfl

theorem eventsOf_openString (P : Params) (n : Nat) (s : State) :
    eventsOf P (Stmt.openString n).expand s = [.drive .rs .high] := rfl

theorem effects_writeString {s : State} {b : Byte} {bs : List Byte} (h : s.payload = b :: bs) :
    effects P Stmt.writeString.expand s =
      { s with
        payload := bs, byte := b, mode := .character, cnt := s.cnt - 1
        out := restingLatches .high (lowNibble b) } := by
  rw [Stmt.expand, effects_cons, effects_sendByte]
  simp [effect, Latches.set, h]

theorem eventsOf_writeString (P : Params) {s : State} {b : Byte} {bs : List Byte}
    (h : s.payload = b :: bs) :
    eventsOf P Stmt.writeString.expand s = byteEvents P b .character := by
  rw [Stmt.expand, eventsOf_cons, eventsOf_sendByte]
  simp [effect, microEvents, Latches.set, byteEvents, sampledByteEvents, RsMode.level, h]

/-- R154: the passes through the loop for bytes that are all on the channel. -/
theorem effects_strings (bs rest : List Byte) {s : State} (h : s.payload = bs ++ rest) :
    effects P (micros (List.replicate bs.length .writeString)) s =
      { sentString bs s with payload := rest } := by
  induction bs generalizing s with
  | nil =>
    have : s.payload = rest := by simpa using h
    simp [sentString, ← this]
  | cons b bs ih =>
    rw [List.length_cons, List.replicate_succ, effects_micros_cons,
      effects_writeString (b := b) (bs := bs ++ rest) (by simpa using h), ih rfl]
    rcases List.eq_nil_or_concat bs with rfl | ⟨cs, c, rfl⟩
    · rfl
    · simp [sentString, List.getLast?_cons, Nat.sub_sub, Nat.add_comm]

theorem eventsOf_strings (P : Params) (bs rest : List Byte) {s : State}
    (h : s.payload = bs ++ rest) :
    eventsOf P (micros (List.replicate bs.length .writeString)) s = stringEvents P bs := by
  induction bs generalizing s with
  | nil => rfl
  | cons b bs ih =>
    have h' : s.payload = b :: (bs ++ rest) := by simpa using h
    rw [List.length_cons, List.replicate_succ, eventsOf_micros_cons, effects_writeString h',
      eventsOf_writeString P h', ih rfl]
    rfl

/-- A loop takes as many string bytes as it has passes; nothing else takes any. -/
theorem bytesTaken_strings (n : Nat) :
    bytesTaken (micros (List.replicate n .writeString)) = n := by
  induction n with
  | zero => rfl
  | succ n ih =>
    rw [List.replicate_succ, micros_cons, bytesTaken, List.count_append, ← bytesTaken,
      ← bytesTaken, ih]
    have : bytesTaken Stmt.writeString.expand = 1 := rfl
    omega

theorem bytesTaken_puts (n : Nat) : bytesTaken (micros (putsProgram n)) = n := by
  have h₁ : bytesTaken (Stmt.openString n).expand = 0 := rfl
  have h₂ : bytesTaken (micros [.drive .rs .low]) = 0 := rfl
  rw [putsProgram, micros_cons, micros_append, bytesTaken, List.count_append, List.count_append,
    ← bytesTaken, ← bytesTaken, ← bytesTaken, h₁, h₂, bytesTaken_strings]
  omega

/-- An operation that nothing cuts short. -/
theorem operate_completes {P : Params} (hP : IdealCollaborators P) {p : List Stmt} {s t : State}
    {n : Nat} {es : List Event} (hn : (micros p).length = n) (h : NoResetWithin n s)
    (hb : bytesTaken (micros p) ≤ s.payload.length) (he : eventsOf P (micros p) (begin s) = es)
    (ht : effects P (micros p) (begin s) = begin t) :
    operate P p s = .next (completed n es t) := by
  subst hn
  rw [operate_of_going (runMicros_ideal hP h.begin hb), he, ht]
  rfl

/-- A statement of the operation that runs, when nothing cuts it short. -/
theorem transmit_ideal {P : Params} (hP : IdealCollaborators P) {p : Stmt} {s : State} {n : Nat}
    (hn : p.expand.length = n) (h : NoResetWithin n s)
    (hb : bytesTaken p.expand ≤ s.payload.length) :
    transmit P p s = .next (progressed n (eventsOf P p.expand s) (effects P p.expand s)) := by
  subst hn
  rw [transmit, runMicros_ideal hP h hb, Run.state_going]

end Sys2Proof.Machine
end

