-- ==== Sys2Proof/Laws/Observers.lean ====
section
/-! SUPPORT. The observers of a trace: how each splits over traces in sequence, and what it says of a nibble, a byte and a string. -/

namespace Sys2Proof.Machine

theorem minElapsed_append (es fs : List Event) :
    minElapsed (es ++ fs) = minElapsed es + minElapsed fs := by simp [minElapsed]

theorem pulses_append (es fs : List Event) : pulses (es ++ fs) = pulses es + pulses fs := by
  simp [pulses]

theorem latched_append (l : Latches) (es fs : List Event) :
    latched l (es ++ fs) = latched l es ++ latched (es.foldl Latches.after l) fs := by
  induction es generalizing l with
  | nil => rfl
  | cons e es ih => simp [latched, ih]

/-! A settle delay (R102). -/

theorem minElapsed_settleEvents (P : Params) (r : Level) :
    minElapsed (settleEvents P r) = P.minUs (settleClass P r) := by
  rw [settleEvents_eq]
  simp [minElapsed, Event.minUs]

theorem pulses_settleEvents (P : Params) (r : Level) : pulses (settleEvents P r) = 0 := by
  rw [settleEvents_eq]
  simp [pulses]

theorem latched_settleEvents (P : Params) (r : Level) (l : Latches) :
    latched l (settleEvents P r) = [] := by
  rw [settleEvents_eq]
  simp [latched, latch]

theorem after_settleEvents (P : Params) (r : Level) (l : Latches) :
    (settleEvents P r).foldl Latches.after l = l := by
  rw [settleEvents_eq]
  rfl

/-! A raw nibble (R103). -/

theorem minElapsed_rawEvents (P : Params) (n : Nibble) :
    minElapsed (rawEvents P n) = P.tEnHoldUs := by
  simp [rawEvents, nibbleEvents, pulseEvents, minElapsed, Event.minUs]

theorem pulses_rawEvents (P : Params) (n : Nibble) : pulses (rawEvents P n) = 1 := by
  simp [rawEvents, nibbleEvents, pulseEvents, pulses]

theorem after_rawEvents (P : Params) (n : Nibble) (l : Latches) :
    (rawEvents P n).foldl Latches.after l = restingLatches l.rs n := rfl

theorem nibble_restingLatches (r : Level) (n : Nibble) : (restingLatches r n).nibble = n := by
  have h : ∀ n : Nibble, (restingLatches .low n).nibble = n := by decide
  exact h n

theorem latched_rawEvents (P : Params) (n : Nibble) {l : Latches} (h : l.en = .low) :
    latched l (rawEvents P n) = [(l.rs, n)] := by
  obtain ⟨rs, en, d4, d5, d6, d7⟩ := l
  obtain rfl : en = .low := h
  exact congrArg (fun x => [(rs, x)]) (nibble_restingLatches rs n)

/-! A byte (R104), whatever the two samples of RS. -/

theorem sampledByteEvents_eq (P : Params) (b : Byte) (m : RsMode) (r₁ r₂ : Level) :
    sampledByteEvents P b m r₁ r₂ =
      [.drive .rs m.level] ++ rawEvents P (highNibble b) ++ settleEvents P r₁
        ++ rawEvents P (lowNibble b) ++ settleEvents P r₂ := by
  simp [sampledByteEvents, rawEvents]

/-- R109: the least time of a byte write. -/
theorem minElapsed_byteEvents (P : Params) (b : Byte) (m : RsMode) :
    minElapsed (byteEvents P b m) = 2 * (P.tEnHoldUs + P.minUs (settleClass P m.level)) := by
  rw [byteEvents, sampledByteEvents_eq]
  simp only [minElapsed_append, minElapsed_rawEvents, minElapsed_settleEvents]
  simp [minElapsed, Event.minUs]
  omega

/-- R106: a byte is two pulses. -/
theorem pulses_byteEvents (P : Params) (b : Byte) (m : RsMode) : pulses (byteEvents P b m) = 2 := by
  rw [byteEvents, sampledByteEvents_eq]
  simp only [pulses_append, pulses_rawEvents, pulses_settleEvents]
  simp [pulses]

theorem after_byteEvents (P : Params) (b : Byte) (m : RsMode) (l : Latches) :
    (byteEvents P b m).foldl Latches.after l = restingLatches m.level (lowNibble b) := by
  rw [byteEvents, sampledByteEvents_eq]
  simp only [List.foldl_append, after_settleEvents, after_rawEvents]
  rfl

/-- R106, R108: the controller takes the two nibbles of a byte with its RS. -/
theorem latched_byteEvents (P : Params) (b : Byte) (m : RsMode) {l : Latches} (h : l.en = .low) :
    latched l (byteEvents P b m) = pairOf m.level b := by
  rw [byteEvents, sampledByteEvents_eq]
  have h₁ : (l.set .rs m.level).en = .low := h
  simp only [latched_append, List.foldl_append, after_settleEvents, after_rawEvents,
    latched_settleEvents, List.foldl_cons, List.foldl_nil, Latches.after, List.append_nil]
  rw [latched_rawEvents P _ h₁, latched_rawEvents P _ rfl]
  rfl

/-! A string (R154). -/

theorem minElapsed_stringEvents (P : Params) (bs : List Byte) :
    minElapsed (stringEvents P bs) =
      2 * (P.tEnHoldUs + P.minUs (settleClass P .high)) * bs.length := by
  induction bs with
  | nil => rfl
  | cons b bs ih =>
    rw [stringEvents, List.flatMap_cons, minElapsed_append, minElapsed_byteEvents, ← stringEvents,
      ih, List.length_cons, Nat.mul_succ, Nat.add_comm]
    rfl

theorem pulses_stringEvents (P : Params) (bs : List Byte) :
    pulses (stringEvents P bs) = 2 * bs.length := by
  induction bs with
  | nil => rfl
  | cons b bs ih =>
    rw [stringEvents, List.flatMap_cons, pulses_append, pulses_byteEvents, ← stringEvents, ih,
      List.length_cons]
    omega

theorem after_stringEvents (P : Params) (bs : List Byte) (l : Latches) :
    (stringEvents P bs).foldl Latches.after l =
      match bs.getLast? with
      | none => l
      | some b => restingLatches .high (lowNibble b) := by
  induction bs generalizing l with
  | nil => rfl
  | cons b bs ih =>
    rw [stringEvents, List.flatMap_cons, List.foldl_append, after_byteEvents, ← stringEvents, ih]
    rcases List.eq_nil_or_concat bs with rfl | ⟨cs, c, rfl⟩
    · rfl
    · simp [List.getLast?_cons]

theorem latched_stringEvents (P : Params) (bs : List Byte) {l : Latches} (h : l.en = .low) :
    latched l (stringEvents P bs) = bs.flatMap (pairOf .high) := by
  induction bs generalizing l with
  | nil => rfl
  | cons b bs ih =>
    rw [stringEvents, List.flatMap_cons, latched_append, latched_byteEvents P b .character h,
      after_byteEvents, ← stringEvents, ih rfl]
    rfl

end Sys2Proof.Machine
end

