-- ==== Sys2Proof/Laws/PerInstr.lean ====
section
/-! SUPPORT. Statements made for each instruction, one lemma per constructor. -/

namespace Sys2Proof.Laws.RoundTrip

/-- The decoder gives a well-formed instruction back from its encoding. -/
def Statement (i : Instr) : Prop := i.WellFormed → decode (encode i) = .ok i

theorem init : Statement .init := fun _ => by simp [encode, decode, decodeWord_packWord]

theorem clear : Statement .clear := fun _ => by simp [encode, decode, decodeWord_packWord]

theorem setcur (row column : Byte) : Statement (.setcur row column) :=
  fun _ => by simp [encode, decode, decodeWord_packWord]

theorem putc (c : Byte) : Statement (.putc c) :=
  fun _ => by simp [encode, decode, decodeWord_packWord]

theorem puts (len : Nat) : Statement (.puts len) := fun h => by
  have h' : len ≤ 255 := of_decide_eq_true h
  simp [encode, decode, decodeWord_packWord, Nat.mod_eq_of_lt (by omega : len < 256)]

theorem putsNull : Statement .putsNull := fun _ => by simp [encode, decode, decodeWord_packWord]

theorem wrb (b : Byte) (m : RsMode) : Statement (.wrb b m) :=
  fun _ => by cases m <;> simp [encode, decode, decodeWord_packWord, RsMode.toBit, RsMode.ofBit]

theorem reserved6 : Statement .reserved6 := fun _ => by simp [encode, decode, decodeWord_packWord]

theorem reserved7 : Statement .reserved7 := fun _ => by simp [encode, decode, decodeWord_packWord]

theorem lcdClear : Statement .lcdClear := fun _ => by decide

theorem lcdEntry : Statement .lcdEntry := fun _ => by decide

theorem lcdDispOff : Statement .lcdDispOff := fun _ => by decide

theorem lcdDispOn : Statement .lcdDispOn := fun _ => by decide

theorem lcdFuncset : Statement .lcdFuncset := fun _ => by decide

theorem lcdSetDdram (a : BitVec 7) : Statement (.lcdSetDdram a) :=
  fun _ => by revert a; decide

theorem lcdData (d : Byte) : Statement (.lcdData d) := fun _ => rfl

theorem lcdNibFs8 : Statement .lcdNibFs8 := fun _ => by decide

theorem lcdNibFs4 : Statement .lcdNibFs4 := fun _ => by decide

end Sys2Proof.Laws.RoundTrip

namespace Sys2Proof.Laws.MicroSteps

open Sys2Proof.Machine

/-- The expanded pseudocode of an operation has as many micro-steps as R244 counts. -/
def Statement (i : Instr) : Prop := isHostOp i = true → (micros (program i)).length = microCount i

theorem init : Statement .init := fun _ => by decide

theorem clear : Statement .clear := fun _ => by decide

theorem setcur (row column : Byte) : Statement (.setcur row column) := fun _ => rfl

theorem putc (c : Byte) : Statement (.putc c) := fun _ => rfl

theorem length_loop (len : Nat) :
    (micros (List.replicate len .writeString)).length = 17 * len := by
  induction len with
  | zero => rfl
  | succ n ih =>
    rw [List.replicate_succ, micros_cons, List.length_append, ih]
    have : Stmt.writeString.expand.length = 17 := rfl
    omega

theorem puts (len : Nat) : Statement (.puts len) := fun _ => by
  have h₁ : (Stmt.openString len).expand.length = 1 := rfl
  have h₂ : (Stmt.drive .rs .low).expand.length = 1 := rfl
  simp only [program, putsProgram, micros_cons, micros_append, micros_nil, List.length_append,
    length_loop, List.length_nil, microCount, h₁, h₂]
  omega

theorem putsNull : Statement .putsNull := fun _ => rfl

theorem wrb (b : Byte) (m : RsMode) : Statement (.wrb b m) := fun _ => rfl

theorem reserved6 : Statement .reserved6 := fun _ => rfl

theorem reserved7 : Statement .reserved7 := fun _ => rfl

theorem lcdClear : Statement .lcdClear := fun h => nomatch h

theorem lcdEntry : Statement .lcdEntry := fun h => nomatch h

theorem lcdDispOff : Statement .lcdDispOff := fun h => nomatch h

theorem lcdDispOn : Statement .lcdDispOn := fun h => nomatch h

theorem lcdFuncset : Statement .lcdFuncset := fun h => nomatch h

theorem lcdSetDdram (a : BitVec 7) : Statement (.lcdSetDdram a) := fun h => nomatch h

theorem lcdData (d : Byte) : Statement (.lcdData d) := fun h => nomatch h

theorem lcdNibFs8 : Statement .lcdNibFs8 := fun h => nomatch h

theorem lcdNibFs4 : Statement .lcdNibFs4 := fun h => nomatch h

end Sys2Proof.Laws.MicroSteps
end

