-- ==== Sys2Proof/Laws/Operations.lean ====
section
/-! SUPPORT. The host operations as one: each that reaches the bus is its program, with the micro-steps, the string bytes and the events the spec writes. -/

namespace Sys2Proof.Machine

/-- R26: the machine's instructions are those of its parameters. -/
theorem exec_eq (i : Instr) (s : State) : exec i s = execWith params i s := by cases i <;> rfl

/-- No row is refused with the machine's parameters (R184, D18). -/
theorem rowAccepted_params (i : Instr) : RowAccepted params i := fun _ _ _ => rfl

/-- A host operation that has micro-steps, and whose row is not refused, is its program. -/
theorem execWith_operation {P : Params} {i : Instr} (h : isHostOp i = true)
    (hc : 0 < microCount i) (hr : RowAccepted P i) (s : State) :
    execWith P i s = operate P (program i) s := by
  cases i with
  | setcur row column => simp [execWith, runSetcur, hr row column rfl]; rfl
  | _ => first | exact absurd hc (Nat.lt_irrefl 0) | rfl | cases h

/-- A host operation without micro-steps ends at decode with InvalidArgument. -/
theorem execWith_rejected (P : Params) {i : Instr} (h : isHostOp i = true)
    (hc : microCount i = 0) (s : State) :
    (i = .putsNull ∨ i = .reserved6 ∨ i = .reserved7) ∧
      execWith P i s = .next (raise .invalidArgument (begin s)) := by
  cases i <;> simp_all [microCount, isHostOp] <;> rfl

/-- A SETCUR whose row is refused ends at decode with InvalidArgument (R184). -/
theorem execWith_refusedRow {P : Params} {row : Byte} (h : rowRefused P row = true) (column : Byte)
    (s : State) :
    execWith P (.setcur row column) s = .next (raise .invalidArgument (begin s)) := by
  simp [execWith, runSetcur, h]; rfl

/-- A host operation that has micro-steps is its program, run by the machine's parameters. -/
theorem exec_operation {i : Instr} (h : isHostOp i = true) (hc : 0 < microCount i) (s : State) :
    exec i s = operate params (program i) s := by
  rw [exec_eq, execWith_operation h hc (rowAccepted_params i)]

/-- A host operation without micro-steps ends at decode with InvalidArgument. -/
theorem exec_rejected {i : Instr} (h : isHostOp i = true) (hc : microCount i = 0) (s : State) :
    (i = .putsNull ∨ i = .reserved6 ∨ i = .reserved7) ∧
      exec i s = .next (raise .invalidArgument (begin s)) :=
  exec_eq i s ▸ execWith_rejected params h hc s

/-- R244, as one statement. -/
theorem length_program {i : Instr} (h : isHostOp i = true) :
    (micros (program i)).length = microCount i := by
  cases i with
  | init => exact Laws.MicroSteps.init h
  | puts len => exact Laws.MicroSteps.puts len h
  | _ => first | rfl | cases h

/-- A string that is on the channel when its PUTS starts is long enough for all its passes. -/
theorem bytesTaken_program {i : Instr} {s : State} (h : isHostOp i = true) (hs : StringReady i s) :
    bytesTaken (micros (program i)) ≤ s.payload.length := by
  cases i with
  | puts len => exact (bytesTaken_puts len).le.trans (hs len rfl)
  | _ => exact Nat.zero_le _

/-- The events of a program are the full trace the spec writes for its operation. -/
theorem eventsOf_program (P : Params) {i : Instr} {s : State} (h : isHostOp i = true)
    (hs : StringReady i s) :
    eventsOf P (micros (program i)) s = fullEvents P (stringOf s i) i := by
  cases i with
  | init =>
    simp only [program, initProgram, eventsOf_micros_cons, effects_drive, effects_wait,
      effects_raw, effects_write, eventsOf_drive, eventsOf_wait, eventsOf_raw, eventsOf_write,
      fullEvents, initEvents, handshakeEvents, List.append_assoc, List.cons_append, List.nil_append]
    rfl
  | clear => simp [program, clearProgram, eventsOf_micros_cons, eventsOf_write, fullEvents]; rfl
  | setcur row column =>
    simp [program, setcurProgram, eventsOf_micros_cons, eventsOf_write, eventsOf_openCursor,
      effects_openCursor, fullEvents]
    rfl
  | putc c =>
    simp [program, putcProgram, eventsOf_micros_cons, eventsOf_write, eventsOf_drive, fullEvents]
    rfl
  | puts len =>
    have hl := hs len rfl
    have e : (effects P (Stmt.openString len).expand s).payload =
        s.payload.take len ++ s.payload.drop len := (List.take_append_drop len s.payload).symm
    have h₁ := eventsOf_strings P _ _ e
    rw [List.length_take, min_eq_left hl] at h₁
    rw [program, putsProgram, eventsOf_micros_cons, micros_append, eventsOf_append, h₁]
    rfl
  | wrb b m => simp [program, wrbProgram, eventsOf_micros_cons, eventsOf_write, fullEvents]; rfl
  | putsNull | reserved6 | reserved7 => rfl
  | lcdClear | lcdEntry | lcdDispOff | lcdDispOn | lcdFuncset => cases h
  | lcdSetDdram _ | lcdData _ | lcdNibFs8 | lcdNibFs4 => cases h

/-! What a run of micro-steps leaves as it was, and the latches it leaves. -/

theorem effects_trace (ms : List Micro) (s : State) : (effects P ms s).trace = s.trace := by
  induction ms generalizing s with
  | nil => rfl
  | cons m ms ih => rw [effects_cons, ih, effect_trace]

theorem effects_rstAfter (ms : List Micro) (s : State) :
    (effects P ms s).rstAfter = s.rstAfter := by
  induction ms generalizing s with
  | nil => rfl
  | cons m ms ih => rw [effects_cons, ih, effect_rstAfter]

theorem effect_out (P : Params) (m : Micro) (s : State) :
    (effect P m s).out = (microEvents P m s).foldl Latches.after s.out := by
  cases m <;> first | rfl | exact (after_settleEvents P _ _).symm

/-- R21: the latches are what the drives of the trace made of them. -/
theorem effects_out (P : Params) (ms : List Micro) (s : State) :
    (effects P ms s).out = (eventsOf P ms s).foldl Latches.after s.out := by
  induction ms generalizing s with
  | nil => rfl
  | cons m ms ih => rw [effects_cons, ih, eventsOf_cons, List.foldl_append, effect_out P]

@[simp] theorem stringOf_begin (s : State) (i : Instr) : stringOf (begin s) i = stringOf s i := by
  cases i <;> rfl

/-- A host operation that nothing cuts short: its full trace, then its `Done`. -/
theorem exec_completes {i : Instr} {s : State} (h : isHostOp i = true) (hc : 0 < microCount i)
    (hs : StringReady i s) (hr : NoResetWithin (microCount i) s) :
    exec i s = .next (finish .ok (progressed (microCount i)
      (fullEvents params (stringOf s i) i) (effects params (micros (program i)) (begin s)))) := by
  have e := runMicros_ideal params_ideal (ms := micros (program i)) (s := begin s)
    (by rw [length_program h]; exact hr.begin) (bytesTaken_program h hs)
  rw [exec_operation h hc, operate_of_going e, eventsOf_program (s := begin s) params h hs,
    length_program h, stringOf_begin]

end Sys2Proof.Machine
end

