-- ==== Sys2Proof/Laws/Sequencer.lean ====
section
/-! SUPPORT. The sequencer: UPC names the micro-step of the expanded pseudocode that the spec means (R24), EN has the level R105 gives it there, and a micro-step carries both on. -/

namespace Sys2Proof.Machine

/-- UPC points where it should: into the running operation, with CNT right in the loop of PUTS (R24, R154). -/
structure UpcOk (s : State) : Prop where
  pos : 0 < s.upc
  le : s.upc ≤ microCount s.running
  cnt : ∀ len, s.running = .puts len → loopCount len s.upc s.cnt

/-! Which micro-step UPC names. -/

theorem locate_eq (ps : List Stmt) (k : Nat) :
    ((locate ps k).bind fun p => p.1.expand[p.2]?) = (micros ps)[k]? := by
  induction ps generalizing k with
  | nil => rfl
  | cons p ps ih =>
    rw [locate, micros_cons]
    split
    · rw [List.getElem?_append_left (by assumption)]; rfl
    · rw [ih, List.getElem?_append_right (by omega)]

theorem micros_loop_getElem? (n k : Nat) (h : k < 17 * n) (ms : List Micro) :
    (micros (List.replicate n .writeString) ++ ms)[k]? = Stmt.writeString.expand[k % 17]? := by
  induction n generalizing k with
  | zero => omega
  | succ n ih =>
    rw [List.replicate_succ, micros_cons, List.append_assoc]
    rcases Nat.lt_or_ge k 17 with hk | hk
    · rw [List.getElem?_append_left hk, Nat.mod_eq_of_lt hk]
    · have hl : Stmt.writeString.expand.length = 17 := rfl
      rw [List.getElem?_append_right (by omega), hl, ih (k - 17) (by omega),
        ← Nat.mod_eq_sub_mod hk]

theorem locateUpc_straight {i : Instr} (h : ∀ len, i ≠ .puts len) (k cnt : Nat) :
    locateUpc i (k + 1) cnt = locate (program i) k := by
  cases i <;> first | rfl | exact absurd rfl (h _)

/-- R24: UPC names the micro-step at its place in the expanded pseudocode. -/
theorem currentMicro_eq {s : State} (h : UpcOk s) :
    s.currentMicro = (micros (program s.running))[s.upc - 1]? := by
  obtain ⟨k, hk⟩ : ∃ k, s.upc = k + 1 := ⟨s.upc - 1, by have := h.pos; omega⟩
  have hle := h.le
  have hcnt := h.cnt
  unfold State.currentMicro State.position
  rw [hk, Nat.add_sub_cancel] at *
  generalize s.running = i at *
  by_cases hp : ∃ len, i = .puts len
  · obtain ⟨len, rfl⟩ := hp
    rcases hcnt len rfl with h0 | h0
    · obtain rfl : k = 0 := by omega
      rfl
    · cases k with
      | zero => rfl
      | succ j =>
        simp only [microCount] at hle
        simp only [show j + 1 + 1 - 2 = j by omega] at h0
        have hprog : (micros (program (.puts len)))[j + 1]? =
            (micros (List.replicate len .writeString) ++ [.drive .rs .low])[j]? := by
          rw [program, putsProgram, micros_cons, micros_append]; rfl
        rw [hprog]
        show ((if j % 17 = 0 ∧ s.cnt = 0 then _ else _ : Option (Stmt × Nat)).bind _) = _
        by_cases hj : j = 17 * len
        · rw [if_pos (by omega), List.getElem?_append_right (by rw [Laws.MicroSteps.length_loop]; omega),
            Laws.MicroSteps.length_loop, hj, Nat.sub_self]
          rfl
        · rw [if_neg (by omega), micros_loop_getElem? _ _ (by omega)]
          rfl
  · rw [locateUpc_straight (fun len e => hp ⟨len, e⟩), locate_eq]

/-! EN along a program (R105). -/

/-- The level of EN after a micro-step. -/
def enAfter (m : Micro) : Level :=
  if m = .drive .en .high ∨ m = .wait .enHold then .high else .low

/-- Each micro-step leaves EN where the next one expects it; the first finds `l`, the last leaves `r`. -/
def enChain (r : Level) : Level → List Micro → Prop
  | l, [] => l = r
  | l, m :: ms => (enBefore m = l ∧ ∀ src i, m ≠ .dataBit .en src i) ∧ enChain r (enAfter m) ms

theorem enChain_append {r l q : Level} {ms ns : List Micro} (h : enChain q l ms)
    (k : enChain r q ns) : enChain r l (ms ++ ns) := by
  induction ms generalizing l with
  | nil => exact h ▸ k
  | cons m ms ih => exact ⟨h.1, ih h.2⟩

theorem enChain_micros {ps : List Stmt} (h : ∀ p ∈ ps, enChain .low .low p.expand) :
    enChain .low .low (micros ps) := by
  induction ps with
  | nil => rfl
  | cons p ps ih =>
    rw [micros_cons]
    exact enChain_append (h p (by simp)) (ih fun q hq => h q (by simp [hq]))

/-- A statement that stands in a program: no line other than RS, no hold on its own. -/
def Stmt.plain : Stmt → Prop
  | .drive l _ => l ≠ .en
  | .wait k => k ≠ .enHold
  | .raw _ | .write _ _ | .writeString | .openCursor _ _ | .openString _ => True

theorem enChain_expand {p : Stmt} (h : p.plain) : enChain .low .low p.expand := by
  cases p with
  | drive l v => cases l <;> first | exact absurd rfl h | simp [Stmt.expand, enChain, enBefore, enAfter]
  | wait k => cases k <;> first | exact absurd rfl h | simp [Stmt.expand, enChain, enBefore, enAfter]
  | raw src => simp [Stmt.expand, driveNibble, pulseEn, enChain, enBefore, enAfter]
  | write src m =>
    simp [Stmt.expand, sendByte, driveNibble, pulseEn, enChain, enBefore,
      enAfter]
  | writeString =>
    simp [Stmt.expand, sendByte, driveNibble, pulseEn, enChain, enBefore,
      enAfter]
  | openCursor row column => simp [Stmt.expand, enChain, enBefore, enAfter]
  | openString n => simp [Stmt.expand, enChain, enBefore, enAfter]

theorem program_plain (i : Instr) : ∀ p ∈ program i, p.plain := by
  cases i <;>
    simp [program, initProgram, clearProgram, setcurProgram, putcProgram, putsProgram, wrbProgram,
      Stmt.plain, or_imp, forall_and]

/-- R105: EN is Low at both ends of every operation, and right in between. -/
theorem enChain_program (i : Instr) : enChain .low .low (micros (program i)) :=
  enChain_micros fun p hp => enChain_expand (program_plain i p hp)

/-! What the machine's own collaborators let a micro-step do. -/

/-- All a micro-step can do with ideal collaborators: the reset that is due, the wait for a string byte, or its effect. -/
theorem perform_ideal_cases {P : Params} (hP : IdealCollaborators P) (m : Micro) (s : State) :
    (s.rstAfter = some 0 ∧ perform P m s = .halted (applyReset s)) ∨
      (s.rstAfter ≠ some 0 ∧ m = .startStringByte ∧ s.payload = [] ∧
        perform P m s = .halted (waiting s)) ∨
      (s.rstAfter ≠ some 0 ∧
        perform P m s = .going (progressed 1 (microEvents P m s) (effect P m s))) := by
  by_cases hr : s.rstAfter = some 0
  · exact .inl ⟨hr, by simp [perform, hr]⟩
  · by_cases hb : m = .startStringByte ∧ s.payload = []
    · refine .inr (.inl ⟨hr, hb.1, hb.2, ?_⟩)
      rw [hb.1, perform_of_clear hr]
      simp [act, hb.2]
    · exact .inr (.inr ⟨hr, perform_ideal hP hr fun e e' => hb ⟨e, e'⟩⟩)

theorem effect_en {m : Micro} {s : State} (h : s.out.en = enBefore m)
    (hd : ∀ src i, m ≠ .dataBit .en src i) :
    (effect P m s).out.en = enAfter m := by
  cases m with
  | drive l v => cases l <;> cases v <;> simp_all [effect, enAfter, enBefore, Latches.set]
  | dataBit l src i => cases l <;> first | exact absurd rfl (hd src i) | simp_all [effect, enAfter, enBefore, Latches.set]
  | wait k => cases k <;> simp_all [effect, enAfter, enBefore]
  | _ => simp_all [effect, enAfter, enBefore, Latches.set]

/-! The running operation, with the micro-steps still to come. -/

/-- The micro-steps `ms` of the running operation are still to come. -/
structure OnTrack (ms : List Micro) (s : State) : Prop where
  busy : s.status.busy = true
  pos : 0 < s.upc
  rest : (micros (program s.running)).drop (s.upc - 1) = ms
  within : s.upc ≤ microCount s.running + 1
  cnt : ∀ len, s.running = .puts len → loopCount len s.upc s.cnt

/-- The same, and EN is where they expect it. -/
structure Ahead (ms : List Micro) (s : State) : Prop extends OnTrack ms s where
  chain : enChain .low s.out.en ms

theorem isHostOp_running (s : State) : isHostOp s.running = true := by
  unfold State.running decodeWord
  split <;> first | rfl | (split <;> rfl)

/-- Where a micro-step of the running operation is next, UPC names it. -/
theorem OnTrack.upcOk {m : Micro} {ms : List Micro} {s : State} (h : OnTrack (m :: ms) s) : UpcOk s := by
  refine ⟨h.pos, ?_, h.cnt⟩
  have h₁ := congrArg List.length h.rest
  rw [List.length_drop, length_program (isHostOp_running s), List.length_cons] at h₁
  omega

theorem OnTrack.currentMicro {m : Micro} {ms : List Micro} {s : State} (h : OnTrack (m :: ms) s) :
    s.currentMicro = some m := by
  rw [currentMicro_eq h.upcOk, ← List.head?_drop, h.rest, List.head?_cons]

/-- The engine's invariant in a busy state. -/
theorem Ahead.inv {m : Micro} {ms : List Micro} {s : State} (h : Ahead (m :: ms) s) :
    EngineInv s :=
  ⟨fun e => by simp [h.busy] at e,
    fun _ => ⟨⟨m, h.currentMicro, h.chain.1.1.symm⟩, h.upcOk.le, h.cnt⟩⟩

theorem enChain_drop {r l : Level} {ms : List Micro} (h : enChain r l ms) {k : Nat} {m : Micro}
    (hm : ms[k]? = some m) : enChain r (enBefore m) (ms.drop k) := by
  induction ms generalizing l k with
  | nil => simp at hm
  | cons n ms ih =>
    cases k with
    | zero =>
      obtain rfl : n = m := by simpa using hm
      exact h.1.1.symm ▸ h
    | succ k => exact ih h.2 hm

/-- A busy state of the invariant has its micro-steps ahead. -/
theorem EngineInv.ahead {s : State} (h : EngineInv s) (hb : s.status.busy = true) :
    ∃ m ms, Ahead (m :: ms) s ∧ s.currentMicro = some m := by
  obtain ⟨⟨m, hm, he⟩, hle, hcnt⟩ := h.2 hb
  have hpos : 0 < s.upc := by
    by_contra h0
    rw [State.currentMicro, State.position, show s.upc = 0 by omega, locateUpc] at hm
    simp at hm
  have hm' := hm
  rw [currentMicro_eq ⟨hpos, hle, hcnt⟩] at hm
  have hd : (micros (program s.running)).drop (s.upc - 1) =
      m :: (micros (program s.running)).drop (s.upc - 1 + 1) :=
    List.drop_eq_getElem?_toList_append.trans (by rw [hm]; rfl)
  exact ⟨m, _, ⟨⟨hb, hpos, hd, by omega, hcnt⟩, by
    rw [← hd, he]; exact enChain_drop (enChain_program _) hm⟩, hm'⟩

/-- An accepted operation has all its micro-steps ahead. -/
theorem onTrack_begin (s : State) : OnTrack (micros (program s.running)) (begin s) :=
  ⟨rfl, Nat.one_pos, rfl, by simp [begin], fun _ _ => .inl rfl⟩

theorem ahead_begin {s : State} (he : s.out.en = .low) :
    Ahead (micros (program s.running)) (begin s) :=
  ⟨onTrack_begin s, by
    show enChain .low s.out.en _
    rw [he]
    exact enChain_program _⟩

@[simp] theorem progressed_running (n : Nat) (es : List Event) (s : State) :
    (progressed n es s).running = s.running := rfl

@[simp] theorem effect_running (m : Micro) (s : State) : (effect P m s).running = s.running := by
  cases m <;> rfl

/-- The place of the two micro-steps that move CNT, in a string operation. -/
theorem cnt_of_loop {len k : Nat} {m : Micro}
    (h : (micros (program (.puts len)))[k]? = some m) :
    (k = 0 ∧ m = .openString len) ∨
      (0 < k ∧ (m = .settleCount ∧ (k - 1) % 17 = 16 ∧ k ≤ 17 * len ∨
        m ≠ .settleCount ∧ ((k - 1) % 17 ≠ 16 ∨ 17 * len < k)) ∧ ∀ n, m ≠ .openString n) := by
  have hprog : micros (program (.puts len)) =
      .openString len :: (micros (List.replicate len .writeString) ++ [.drive .rs .low]) := by
    rw [program, putsProgram, micros_cons, micros_append]; rfl
  rw [hprog] at h
  cases k with
  | zero => exact .inl ⟨rfl, by simpa using h.symm⟩
  | succ j =>
    refine .inr ⟨by omega, ?_⟩
    rw [List.getElem?_cons_succ] at h
    rcases Nat.lt_or_ge j (17 * len) with hj | hj
    · rw [micros_loop_getElem? _ _ hj] at h
      rw [Nat.add_sub_cancel]
      have hm : j % 17 < 17 := Nat.mod_lt _ (by decide)
      generalize j % 17 = r at *
      have : ∀ r < 17, ∀ m, Stmt.writeString.expand[r]? = some m →
          (m = .settleCount ∧ r = 16 ∨ m ≠ .settleCount ∧ r ≠ 16) ∧ ∀ n, m ≠ .openString n := by
        intro r hr m e
        interval_cases r <;>
          simp [Stmt.expand, sendByte, driveNibble, pulseEn] at e <;>
          subst e <;> simp
      obtain ⟨h₁ | h₁, h₂⟩ := this r hm m h
      · exact ⟨.inl ⟨h₁.1, h₁.2, by omega⟩, h₂⟩
      · exact ⟨.inr ⟨h₁.1, .inl h₁.2⟩, h₂⟩
    · rw [List.getElem?_append_right (by rw [Laws.MicroSteps.length_loop]; exact hj)] at h
      have := List.mem_of_getElem? h
      simp only [List.mem_singleton] at this
      subst this
      exact ⟨.inr ⟨by simp, .inr (by omega)⟩, by simp⟩

/-- A micro-step of the running operation carries everything on. -/
theorem OnTrack.next {P : Params} {m : Micro} {ms : List Micro} {s : State}
    (h : OnTrack (m :: ms) s) :
    OnTrack ms (progressed 1 (microEvents P m s) (effect P m s)) := by
  have hle := h.upcOk.le
  have hpos := h.pos
  refine ⟨by simp [progressed, h.busy], by simp [progressed], ?_, ?_, ?_⟩
  · rw [progressed_running, effect_running]
    have : (progressed 1 (microEvents P m s) (effect P m s)).upc - 1 = (s.upc - 1) + 1 := by
      simp [progressed]; omega
    rw [this, ← List.drop_drop, h.rest]
    rfl
  · rw [progressed_running, effect_running]; simp [progressed, hle]
  · intro len hl
    rw [progressed_running, effect_running] at hl
    have hm := h.currentMicro
    rw [currentMicro_eq h.upcOk, hl] at hm
    show loopCount len ((effect P m s).upc + 1) (effect P m s).cnt
    rw [effect_upc]
    right
    rw [hl] at hle
    simp only [microCount] at hle
    obtain ⟨hk, rfl⟩ | ⟨hk, h₁, h₂⟩ := cnt_of_loop hm
    · have : s.upc = 1 := by omega
      simp [effect, this]
    · have hc := (h.cnt len hl).resolve_left (by omega)
      obtain ⟨rfl, h₃, h₄⟩ | ⟨h₃, h₄⟩ := h₁
      · show s.cnt - 1 + _ = len
        omega
      · have : (effect P m s).cnt = s.cnt := by
          cases m <;> first | rfl | exact absurd rfl h₃ | exact absurd rfl (h₂ _)
        rw [this]
        omega

theorem Ahead.next {P : Params} {m : Micro} {ms : List Micro} {s : State} (h : Ahead (m :: ms) s) :
    Ahead ms (progressed 1 (microEvents P m s) (effect P m s)) :=
  ⟨h.toOnTrack.next, by
    show enChain .low (effect P m s).out.en ms
    rw [effect_en h.chain.1.1.symm h.chain.1.2]
    exact h.chain.2⟩

/-! The invariant at the places where an operation ends, and the end itself. -/

theorem EngineInv.applyReset (s : State) : EngineInv (applyReset s) :=
  ⟨fun _ => ⟨rfl, rfl⟩, fun h => by simp [Status.reset] at h⟩

theorem EngineInv.finish {s : State} (e : ErrCode) (h : s.out.en = .low) : EngineInv (finish e s) :=
  ⟨fun _ => ⟨rfl, h⟩, fun h => by simp at h⟩

theorem Ahead.waiting {ms : List Micro} {s : State} (h : Ahead ms s) : Ahead ms (waiting s) :=
  ⟨⟨h.busy, h.pos, h.rest, h.within, h.cnt⟩, h.chain⟩

/-- A stretch of the running operation: the rest of it is ahead, or it halted in a state of the invariant. -/
theorem Ahead.run {P : Params} (hP : IdealCollaborators P) {ms ns : List Micro} {s : State}
    (h : Ahead (ms ++ ns) s) :
    (∃ t, runMicros P ms s = .going t ∧ Ahead ns t) ∨
      (∃ t, runMicros P ms s = .halted t ∧ EngineInv t) := by
  induction ms generalizing s with
  | nil => exact .inl ⟨s, rfl, h⟩
  | cons m ms ih =>
    rcases perform_ideal_cases hP m s with ⟨_, e⟩ | ⟨_, _, _, e⟩ | ⟨_, e⟩
    · exact .inr ⟨_, by simp [runMicros, e], EngineInv.applyReset s⟩
    · exact .inr ⟨_, by simp [runMicros, e], h.waiting.inv⟩
    · rw [runMicros_cons e]
      exact ih h.next

theorem closeIfOver_cons {m : Micro} {ms : List Micro} {s : State} (h : OnTrack (m :: ms) s) :
    closeIfOver s = s := by
  have := h.upcOk.le
  simp [closeIfOver, Nat.not_lt.mpr this]

theorem closeIfOver_nil {s : State} (h : OnTrack [] s) : closeIfOver s = finish .ok s := by
  have h2 := congrArg List.length h.rest
  rw [List.length_drop, length_program (isHostOp_running s)] at h2
  have := h.pos
  simp at h2
  simp [closeIfOver, h.busy, show microCount s.running < s.upc by omega]

theorem closeIfOver_idle {s : State} (h : s.status.busy = false) : closeIfOver s = s := by
  simp [closeIfOver, h]

theorem Ahead.inv_closeIfOver {ms : List Micro} {s : State} (h : Ahead ms s) :
    EngineInv (closeIfOver s) := by
  cases ms with
  | nil => rw [closeIfOver_nil h.toOnTrack]; exact EngineInv.finish _ h.chain
  | cons m ms => rw [closeIfOver_cons h.toOnTrack]; exact h.inv

theorem EngineInv.closeIfOver_eq {s : State} (h : EngineInv s) : closeIfOver s = s := by
  cases hb : s.status.busy with
  | false => exact closeIfOver_idle hb
  | true => obtain ⟨m, ms, h, -⟩ := h.ahead hb; exact closeIfOver_cons h.toOnTrack

/-- One micro-step of a busy engine whose sequence is on its way. -/
theorem microStep_onTrack {P : Params} (hP : IdealCollaborators P) {m : Micro} {ms : List Micro}
    {s : State} (h : OnTrack (m :: ms) s) (hr : s.rstAfter ≠ some 0)
    (hb : m = .startStringByte → s.payload ≠ []) :
    microStep P s =
      .next (closeIfOver (progressed 1 (microEvents P m s) (effect P m s))) := by
  simp only [microStep, h.currentMicro, perform_ideal hP hr hb]

/-- What a command word does, under any parameters: its program, or the end at decode. -/
theorem execWith_decodeWord (P : Params) (w : CmdWord) (s : State) :
    execWith P (decodeWord w) s = operate P (program (decodeWord w)) s ∨
      execWith P (decodeWord w) s = .next (raise .invalidArgument (begin s)) := by
  have h : isHostOp (decodeWord w) = true := isHostOp_running { State.reset with cw := w }
  rcases Nat.eq_zero_or_pos (microCount (decodeWord w)) with hc | hc
  · exact .inr (execWith_rejected P h hc s).2
  · by_cases hr : RowAccepted P (decodeWord w)
    · exact .inl (execWith_operation h hc hr s)
    · simp only [RowAccepted, not_forall, Bool.not_eq_false] at hr
      obtain ⟨row, column, e, hr⟩ := hr
      rw [e]
      exact .inr (execWith_refusedRow hr column s)

/-- What a command word does. -/
theorem exec_decodeWord (w : CmdWord) (s : State) :
    exec (decodeWord w) s = operate params (program (decodeWord w)) s ∨
      exec (decodeWord w) s = .next (raise .invalidArgument (begin s)) :=
  exec_eq (decodeWord w) s ▸ execWith_decodeWord params w s

/-- A byte write does the same whether its byte is given or read where the pseudocode says. -/
theorem runMicros_write_lit (P : Params) (src : ByteSrc) (m : RsMode) (s : State) :
    runMicros P (Stmt.write (.lit (src.value P s)) m).expand s =
      runMicros P (Stmt.write src m).expand s := by
  have : perform P (.startByte (.lit (src.value P s)) m) s = perform P (.startByte src m) s := by
    unfold perform
    split
    · rfl
    · cases src <;> rfl
  rw [Stmt.expand, Stmt.expand, runMicros, runMicros, this]

/-- What a micro-step that goes on leaves in BYTE, unless it starts a byte. -/
theorem perform_byte {P : Params} {m : Micro} {s t : State} (h : perform P m s = .going t)
    (hm : ∃ l src i, m = .dataBit l src i) : t.byte = s.byte := by
  obtain ⟨l, src, i, rfl⟩ := hm
  unfold perform at h
  split at h
  · cases h
  · simp only [act, driveLine] at h
    have hb : (collabOutcome P (waiting s)).2.byte = s.byte := by
      unfold collabOutcome
      split
      · split <;> rfl
      · rfl
    rcases attempt_cases P (fun t => emit (.drive l (bitLevel (src.value P (waiting s)) i))
      { t with out := t.out.set l (bitLevel (src.value P (waiting s)) i) }) (waiting s) with e | e
    · rw [e] at h; cases h; exact hb
    · rw [e] at h; cases h

/-- The value of a nibble operand depends on BYTE alone. -/
theorem NibSrc.value_congr {P : Params} {s t : State} (h : t.byte = s.byte) (src : NibSrc) :
    src.value P t = src.value P s := by
  cases src <;> simp [NibSrc.value, h]

/-- DriveNibble does the same whether its nibble is given or read where the pseudocode says. -/
theorem runMicros_driveNibble_lit (P : Params) (src : NibSrc) (ms : List Micro) {n : Nibble}
    {s : State} (hn : src.value P s = n) :
    runMicros P (driveNibble (.lit n) ++ ms) s = runMicros P (driveNibble src ++ ms) s := by
  have one : ∀ l i (t : State), src.value P t = n →
      perform P (.dataBit l (.lit n) i) t = perform P (.dataBit l src i) t := by
    intro l i t ht
    have : src.value P (waiting t) = n := (NibSrc.value_congr (s := t) rfl src).trans ht
    unfold perform
    simp only [act, this, show (NibSrc.lit n).value P (waiting t) = n from rfl]
  have all : ∀ (is : List (Line × Nat)) (t : State), src.value P t = n →
      runMicros P (is.map (fun x => .dataBit x.1 (.lit n) x.2) ++ ms) t =
        runMicros P (is.map (fun x => .dataBit x.1 src x.2) ++ ms) t := by
    intro is
    induction is with
    | nil => intros; rfl
    | cons x is ih =>
      intro t ht
      simp only [List.map_cons, List.cons_append, runMicros, one x.1 x.2 t ht]
      cases e : perform P (.dataBit x.1 src x.2) t with
      | halted u => rfl
      | going u =>
        exact ih u ((NibSrc.value_congr (perform_byte e ⟨_, _, _, rfl⟩) src).trans ht)
  exact all [(.d4, 0), (.d5, 1), (.d6, 2), (.d7, 3)] s hn

/-- A row that stands on the bus means the statement that puts it there, under any parameters. -/
theorem execWith_emission {P : Params} {p : Stmt} {s : State} {x : BusWord} {i : Instr}
    (hx : p.busWord P s = some x) (hd : decode x = .ok i) :
    execWith P i s = transmit P p s := by
  cases p with
  | raw src =>
    simp only [Stmt.busWord, Option.some.injEq] at hx; subst hx
    simp only [decode, decodeNibble] at hd
    rw [transmit]
    split at hd
    · cases hd
      rw [Stmt.expand, ← runMicros_driveNibble_lit P src pulseEn ‹_›]; rfl
    · split at hd
      · cases hd
        rw [Stmt.expand, ← runMicros_driveNibble_lit P src pulseEn ‹_›]; rfl
      · cases hd
  | write src m =>
    simp only [Stmt.busWord, Option.some.injEq] at hx; subst hx
    rw [transmit, ← runMicros_write_lit]
    cases m with
    | character => simp only [RsMode.level, decode] at hd; cases hd; rfl
    | command =>
      simp only [RsMode.level, decode] at hd
      generalize src.value P s = b at *
      simp only [decodeCommandByte] at hd
      have hs : ∀ b : Byte, b.getLsbD 7 = true →
          ((1 : BitVec 1) ++ (b.extractLsb' 0 7 : BitVec 7) : Byte) = b := by decide
      split at hd
      · cases hd; subst b; rfl
      split at hd
      · cases hd; subst b; rfl
      split at hd
      · cases hd; subst b; rfl
      split at hd
      · cases hd; subst b; rfl
      split at hd
      · cases hd; subst b; rfl
      split at hd
      · rename_i h7; cases hd
        show transmit _ (.write (.lit ((1 : BitVec 1) ++ (b.extractLsb' 0 7 : BitVec 7))) _) s = _
        rw [hs b h7]; rfl
      · cases hd
  | _ => cases hx

/-- The same of this instance. -/
theorem exec_emission {p : Stmt} {s : State} {x : BusWord} {i : Instr}
    (hx : p.busWord params s = some x) (hd : decode x = .ok i) :
    exec i s = transmit params p s := exec_eq i s ▸ execWith_emission hx hd

/-- At the start of a statement that puts something on the bus, that statement is ahead whole. -/
theorem Ahead.of_position {p : Stmt} {ms : List Micro} {s : State} (h : Ahead ms s)
    {P : Params} (hx : (p.busWord P s).isSome) (hp : s.position = some (p, 0)) : ∃ ns, ms = p.expand ++ ns := by
  have loc : ∀ ps k, locate ps k = some (p, 0) →
      ∃ ns, (micros ps).drop k = p.expand ++ ns := by
    intro ps
    induction ps with
    | nil => intro k h; cases h
    | cons q qs ih =>
      intro k h
      rw [locate] at h
      split at h
      · cases h; exact ⟨micros qs, by rw [micros_cons]; rfl⟩
      · obtain ⟨ns, e⟩ := ih _ h
        refine ⟨ns, ?_⟩
        rw [micros_cons, ← e]
        rw [List.drop_append, List.drop_eq_nil_of_le (by omega), List.nil_append]
  obtain ⟨k, hk⟩ : ∃ k, s.upc = k + 1 := ⟨s.upc - 1, by have := h.pos; omega⟩
  rw [← h.rest, hk, Nat.add_sub_cancel]
  unfold State.position at hp
  rw [hk] at hp
  by_cases hp' : ∃ len, s.running = .puts len
  · obtain ⟨len, e⟩ := hp'
    rw [e] at hp
    simp only [locateUpc] at hp
    split at hp
    · cases hp; cases hx
    · unfold locateInLoop at hp
      split at hp <;> simp at hp
      · rw [← hp] at hx; cases hx
      · rw [← hp.1] at hx; cases hx
  · rw [locateUpc_straight (fun len e => hp' ⟨len, e⟩)] at hp
    exact loc _ _ hp

/-- Where a row is about to be emitted. -/
theorem nextEmission_some {P : Params} {s : State} {i : Instr}
    (h : s.nextEmission P = some i) :
    ∃ p x, s.position = some (p, 0) ∧ p.busWord P s = some x ∧ decode x = .ok i := by
  unfold State.nextEmission at h
  split at h
  · rename_i p hp
    cases hx : p.busWord P s with
    | none => rw [hx] at h; cases h
    | some x =>
      rw [hx] at h
      refine ⟨p, x, hp, hx, ?_⟩
      cases hd : decode x with
      | error e => simp [hd, Except.toOption] at h
      | ok j => simp [hd, Except.toOption] at h; rw [h]
  · cases h

/-- A string operation stands before no row of the table: its bytes are sent micro-step by micro-step (log 12). -/
theorem nextEmission_puts (P : Params) {s : State} {len : Nat} (h : s.running = .puts len) :
    s.nextEmission P = none := by
  have hp : ∀ p k, s.position = some (p, k) → p.busWord P s = none := by
    intro p k e
    unfold State.position at e
    rw [h] at e
    cases hu : s.upc with
    | zero => rw [hu] at e; cases e
    | succ j =>
      rw [hu] at e
      simp only [locateUpc] at e
      split at e
      · cases e; rfl
      · unfold locateInLoop at e
        split at e <;> cases e <;> rfl
  unfold State.nextEmission
  split
  · rename_i e; rw [hp _ _ e]; rfl
  · rfl

/-- A busy engine that stands before no emission takes one micro-step. -/
theorem stepWith_microStep {P : Params} {s : State} (hr : s.rstAfter ≠ some 0)
    (hb : s.status.busy = true) (he : s.nextEmission P = none) : stepWith P s = microStep P s := by
  simp [stepWith, stepBy, busyStep, hr, hb, he]

/-- R26: the machine's step is the step of its parameters. -/
theorem step_eq (s : State) : step s = stepWith params s := by
  have : exec = execWith params := funext fun i => funext (exec_eq i)
  rw [step, stepWith, this]

/-- Along a string operation that nothing cuts short, the machine's steps are its micro-steps, to the end. -/
theorem steps_onTrack {ms : List Micro} {s : State} {len : Nat} (h : OnTrack ms s)
    (hl : s.running = .puts len) (hr : s.rstAfter = none) (hb : bytesTaken ms ≤ s.payload.length)
    (hne : ms ≠ []) : steps ms.length s = microSteps params ms.length s := by
  induction ms generalizing s with
  | nil => exact absurd rfl hne
  | cons m ms ih =>
    obtain ⟨h₁, h₂⟩ := bytesTaken_effect (P := params) hb
    have hd : s.rstAfter ≠ some 0 := by simp [hr]
    have hs : step s = microStep params s :=
      step_eq s ▸ stepWith_microStep hd h.busy (nextEmission_puts params hl)
    have hn := h.next (P := params)
    rw [List.length_cons, steps, microSteps, hs, microStep_onTrack params_ideal h hd h₁]
    cases ms with
    | nil => simp only [closeIfOver_nil hn]; rfl
    | cons m' ms =>
      simp only [closeIfOver_cons hn, hn.busy, if_true]
      exact ih hn (by simpa using hl) (by simp [hr]) h₂ (by simp)

end Sys2Proof.Machine
end

