-- ==== Sys2Proof/Tests/Slice0.lean ====
section
/-! SUPPORT. The model's own tests, with expected values from the tables and examples of spec/, and for every obligation with hypotheses a state and operands that meet them. -/

namespace Sys2Proof.Tests

open Sys2Proof.Machine

set_option maxRecDepth 20000

/-! ## Well-formedness and decoding -/

theorem test_puts_256_is_ill_formed : (Instr.puts 256).wf = false := by decide

theorem test_puts_255_is_well_formed : (Instr.puts 255).WellFormed := by decide

/-- R72 row by row: OP, A, B written out from R70's format. -/
theorem test_host_words_decode :
    decodeWord 0b000_00000000_00000000 = .init ∧ decodeWord 0b001_00000000_00000000 = .clear ∧
    decodeWord 0b010_00000010_00000101 = .setcur 2 5 ∧
    decodeWord 0b011_00000000_01000001 = .putc 0x41 ∧
    decodeWord 0b100_00000001_00000010 = .puts 2 ∧ decodeWord 0b100_00000000_00000000 = .putsNull ∧
    decodeWord 0b101_00000000_00101000 = .wrb 0x28 .command ∧
    decodeWord 0b101_00000001_01000001 = .wrb 0x41 .character ∧
    decodeWord 0b110_00000000_00000000 = .reserved6 ∧
    decodeWord 0b111_00000000_00000000 = .reserved7 := by decide

/-- R73: the ignored bits set. -/
theorem test_ignored_bits :
    decodeWord 0b000_11111111_11111111 = .init ∧ decodeWord 0b011_11111111_01000001 = .putc 0x41 ∧
    decodeWord 0b100_11111110_00000111 = .putsNull ∧ decodeWord 0b100_11111111_00000011 = .puts 3 ∧
    decodeWord 0b101_11111111_01000001 = .wrb 0x41 .character := by decide

/-- R77, bit by bit. -/
theorem test_command_bytes_decode :
    decode (.lcdByte .low 0b0000_0001) = .ok .lcdClear ∧
    decode (.lcdByte .low 0b0000_0110) = .ok .lcdEntry ∧
    decode (.lcdByte .low 0b0000_1000) = .ok .lcdDispOff ∧
    decode (.lcdByte .low 0b0000_1100) = .ok .lcdDispOn ∧
    decode (.lcdByte .low 0b0010_1000) = .ok .lcdFuncset ∧
    decode (.lcdByte .low 0b1100_0100) = .ok (.lcdSetDdram 0b100_0100) := by decide

/-- R78, R79, bit by bit. -/
theorem test_data_and_nibbles_decode :
    decode (.lcdByte .high 0b0000_0001) = .ok (.lcdData 0x01) ∧
    decode (.lcdNibble 0b0011) = .ok .lcdNibFs8 ∧ decode (.lcdNibble 0b0010) = .ok .lcdNibFs4 := by
  decide

/-- R77, R79: bytes and nibbles that no row spells are rejected by name. -/
theorem test_no_row_is_rejected :
    decode (.lcdByte .low 0x02) = .error (.commandByteOfNoRow 0x02) ∧
    decode (.lcdByte .low 0x7F) = .error (.commandByteOfNoRow 0x7F) ∧
    decode (.lcdNibble 0) = .error (.rawNibbleOfNoRow 0) := by decide

/-- spec/opcode_table.json: each row's match, in its own numbering. -/
theorem test_table_words :
    decodeTableWord 24 0x00000 = some .init ∧ decodeTableWord 24 0x10000 = some .clear ∧
    decodeTableWord 24 0x20205 = some (.setcur 2 5) ∧
    decodeTableWord 24 0x30041 = some (.putc 0x41) ∧ decodeTableWord 24 0x40102 = some (.puts 2) ∧
    decodeTableWord 24 0x40000 = some .putsNull ∧
    decodeTableWord 24 0x50141 = some (.wrb 0x41 .character) ∧
    decodeTableWord 24 0x60000 = some .reserved6 ∧ decodeTableWord 24 0x70000 = some .reserved7 ∧
    decodeTableWord 8 0x01 = some .lcdClear ∧ decodeTableWord 8 0x80 = some (.lcdSetDdram 0) ∧
    decodeTableWord 8 0x00 = some (.lcdData 0) ∧ decodeTableWord 8 0x03 = some .lcdNibFs8 ∧
    decodeTableWord 8 0x02 = some .lcdNibFs4 ∧ decodeTableWord 24 0x80000 = none := by decide

/-! ## Helpers -/

/-- The next state. -/
def nextOf : Host.Outcome State Fault Refusal → Option State
  | .next s => some s
  | .fault _ => none
  | .refused _ => none

/-- A small state: reset, with these latches (R21's bits D7 D6 D5 D4 EN RS). -/
def withOut (rs : Level) (n : Nibble) : State := { State.reset with out := restingLatches rs n }

/-- The state after INIT, 95_test_vectors.md section 2.3. -/
def afterInit : State := withOut .low 0xC

/-- The pins an outcome shows, from the latches the state started with. -/
def waveOf (s : State) (r : Host.Outcome State Fault Refusal) : Option (List Event) :=
  (nextOf r).map fun t => waveform s.out t.trace

/-- What the controller took. -/
def latchedFrom (s : State) (r : Host.Outcome State Fault Refusal) : Option (List (Level × Nibble)) :=
  (nextOf r).map fun t => latched s.out t.trace

/-- OUT, STATUS and UPC after. -/
def restOf (r : Host.Outcome State Fault Refusal) : Option (BitVec 6 × BitVec 3 × Nat) :=
  (nextOf r).map fun t => (t.out.word, t.status.word, t.upc)

/-- Waveform notation: a pulse of EN. -/
def en : List Event := [.drive .en .high, .wait .enHold 1, .drive .en .low]

/-- A trace in groups. -/
def groups (ess : List (List Event)) : List Event := ess.flatten

/-! ## One step each, from 95_test_vectors.md -/

/-- Section 3: INIT from reset, OUT and STATUS after. -/
theorem test_init_end : restOf (step (State.reset.withFetchWord 24 0x00000)) =
    some (0b110000, 0b000, 0) := by decide

/-- Section 3: INIT's Latched and its least time. -/
theorem test_init_latched :
    latchedFrom State.reset (exec .init State.reset) =
      some [(.low, 3), (.low, 3), (.low, 3), (.low, 2), (.low, 2), (.low, 8), (.low, 0), (.low, 8),
        (.low, 0), (.low, 1), (.low, 0), (.low, 6), (.low, 0), (.low, 0xC)] ∧
    (nextOf (exec .init State.reset)).map (fun t => minElapsed t.trace) = some 25314 := by decide

/-- V1. -/
theorem test_clear_waveform : waveOf afterInit (exec .clear afterInit) =
    some (groups [[.drive .d6 .low, .drive .d7 .low], en, [.wait .short 200, .drive .d4 .high], en,
      [.wait .short 200, .done .ok]]) := by decide

/-- X7: ERR is overwritten, not sticky. -/
theorem test_clear_overwrites_err :
    restOf (exec .clear { State.reset with status := ⟨false, .invalidArgument⟩ }) =
      some (0b000100, 0b000, 0) := by decide

/-- V3. -/
theorem test_setcur_waveform : waveOf (withOut .low 0x1) (exec (.setcur 2 5) (withOut .low 0x1)) =
    some (groups [[.drive .d4 .low, .drive .d6 .high, .drive .d7 .high], en,
      [.wait .short 200, .drive .d7 .low], en, [.wait .short 200, .done .ok]]) := by decide

/-- X6, S8: a row of no display row. -/
theorem test_setcur_other_row : latchedFrom State.reset (exec (.setcur 3 7) State.reset) =
    some [(.low, 0x8), (.low, 0x0)] := by decide

/-- V4. -/
theorem test_putc_waveform : waveOf (withOut .low 0x4) (exec (.putc 0x41) (withOut .low 0x4)) =
    some (groups [[.drive .rs .high], en, [.wait .long 4500, .drive .d4 .high, .drive .d6 .low], en,
      [.wait .long 4500, .drive .rs .low, .done .ok]]) := by decide

/-- V8: 0x00 is sent like any other byte. -/
theorem test_putc_zero : restOf (step ((withOut .low 0x9).withFetchWord 24 0x30000)) =
    some (0b000000, 0b000, 0) := by decide

/-- V5. -/
theorem test_puts_waveform :
    waveOf (withOut .low 0x1) (exec (.puts 2) { withOut .low 0x1 with payload := [0x48, 0x69] }) =
      some (groups [[.drive .rs .high, .drive .d4 .low, .drive .d6 .high], en,
        [.wait .long 4500, .drive .d6 .low, .drive .d7 .high], en,
        [.wait .long 4500, .drive .d5 .high, .drive .d6 .high, .drive .d7 .low], en,
        [.wait .long 4500, .drive .d4 .high, .drive .d5 .low, .drive .d6 .low, .drive .d7 .high], en,
        [.wait .long 4500, .drive .rs .low, .done .ok]]) := by decide

/-- V9: a zero byte does not end the string. -/
theorem test_puts_zero_byte :
    latchedFrom State.reset (step (State.reset.withFetchWord 40 0x8000040102)) =
      some [(.high, 0), (.high, 0), (.high, 8), (.high, 0)] := by decide

/-- X2: no payload byte is consumed. -/
theorem test_puts_null :
    (nextOf (exec .putsNull { State.reset with payload := [0x48] })).map
      (fun t => (t.payload, t.trace, t.status.word)) =
      some ([0x48], [.done .invalidArgument], 0b010) := by decide

/-- T1, all events. -/
theorem test_wrb_trace : (nextOf (exec (.wrb 0x28 .command) State.reset)).map State.trace =
    some (groups [[.drive .rs .low, .drive .d4 .low, .drive .d5 .high, .drive .d6 .low, .drive .d7 .low], en,
      [.sample .rs .low, .wait .short 200, .drive .d4 .low, .drive .d5 .low,
        .drive .d6 .low, .drive .d7 .high], en, [.sample .rs .low, .wait .short 200, .done .ok]]) := by decide

/-- T6: RS stays High. -/
theorem test_wrb_character : restOf (step (State.reset.withFetchWord 24 0x5015A)) =
    some (0b101001, 0b000, 0) := by decide

/-- X3. -/
theorem test_reserved6 : restOf (step ((withOut .high 0x5).withFetchWord 24 0x60000)) =
    some (0b010101, 0b010, 0) := by decide

/-- X4. -/
theorem test_reserved7 : (nextOf (step (State.reset.withFetchWord 24 0x7FFFF))).map State.trace =
    some [.done .invalidArgument] := by decide

/-- R77, R131 to R153: what the step emits for each command row, where a running operation emits it. -/
theorem test_lcd_clear : latchedFrom State.reset (step (State.reset.withFetchWord 8 0x01)) =
    some [(.low, 0x0), (.low, 0x1)] := by decide

theorem test_lcd_entry : latchedFrom State.reset (step (State.reset.withFetchWord 8 0x06)) =
    some [(.low, 0x0), (.low, 0x6)] := by decide

theorem test_lcd_disp_off : latchedFrom State.reset (step (State.reset.withFetchWord 8 0x08)) =
    some [(.low, 0x0), (.low, 0x8)] := by decide

/-- The last byte of INIT: the operation ends with it. -/
theorem test_lcd_disp_on : restOf (step (State.reset.withFetchWord 8 0x0C)) =
    some (0b110000, 0b000, 0) := by decide

/-- R244: 34 micro-steps of INIT stand before CMD_FUNCSET, 17 are its own. -/
theorem test_lcd_funcset : restOf (step (State.reset.withFetchWord 8 0x28)) =
    some (0b100000, 0b001, 52) := by decide

theorem test_lcd_set_ddram : latchedFrom State.reset (step (State.reset.withFetchWord 8 0xC4)) =
    some [(.low, 0xC), (.low, 0x4)] := by decide

/-- R153: RS is still High, the operation still runs, one micro-step is left. -/
theorem test_lcd_data : restOf (step (State.reset.withFetchWord 8 0x41)) =
    some (0b000101, 0b001, 19) := by decide

/-- Section 2.2. -/
theorem test_lcd_nib_fs8 : (nextOf (step (State.reset.withFetchWord 8 0x03))).map State.trace =
    some (groups [[.drive .d4 .high, .drive .d5 .high, .drive .d6 .low, .drive .d7 .low], en]) := by decide

theorem test_lcd_nib_fs4 : waveOf (withOut .low 0x3) (step ((withOut .low 0x3).withFetchWord 8 0x02)) =
    some (.drive .d4 .low :: en) := by decide

/-- T9: the pin of RS forced High, in mode Command. -/
theorem test_foreign_rs :
    (nextOf (runWrb { params with rsLoopback := false } 0x28 .command
      { State.reset with rsIn := [.high, .high] })).map
      (fun t => t.trace.filter fun e => e == .wait .long 4500 || e == .wait .short 200) =
      some [.wait .long 4500, .wait .long 4500] := by decide

/-- X5. -/
theorem test_strict_row :
    (nextOf (runSetcur { params with strictRow := true } 3 7 afterInit)).map
      (fun t => (t.trace, t.out, t.status.word)) =
      some ([.done .invalidArgument], afterInit.out, 0b010) := by decide

/-- X8: the first `Drive(EN,0)` fails, EN is left High. -/
theorem test_collaborator_failure :
    restOf (runWrb { params with collabFaults := true } 0x28 .command
      { State.reset with failIn := [false, false, false, false, false, false, false, true] }) =
      some (0b001010, 0b100, 0) := by decide

/-- R6, R77, R79: the parameters of this spec are the bytes and nibbles of the table's rows. -/
theorem test_parameters_spell_the_rows :
    params.cmdFuncset = cmdFuncset ∧ params.cmdDispOff = cmdDispOff ∧ params.cmdClear = cmdClear ∧
    params.cmdEntry = cmdEntry ∧ params.cmdDispOn = cmdDispOn ∧ params.nibFs8 = nibFs8 ∧
    params.nibFs4 = nibFs4 ∧ params.cmdSetDdram = 0x80 ∧ params.row2Base = 0x40 ∧
    params.nRows = 2 := by decide

/-- R7, R26: an instance with another CMD_CLEAR sends that byte. -/
theorem test_other_instance :
    latchedFrom State.reset (stepWith { params with cmdClear := 0x02 }
      (State.reset.withFetchWord 24 0x10000)) = some [(.low, 0x0), (.low, 0x2)] := by decide

/-- R131: "the range form of the Delay capability with open upper hints", GAP3 among them. -/
theorem test_gap3_hint : delayCall { params with tGap3MinUs := 50, tGap3MaxUs := 90 } .gap3 =
    .sleepAtLeast 50 90 := by decide

/-- V11: a word offered to a busy engine stays offered. -/
theorem test_busy_guard :
    (nextOf (step { State.reset.withFetchWord 8 0x41 with offers := [0x10000] })).map
      State.offers = some [0x10000] := by decide

/-- R232: a reset between the two writes of a pulse: EN and RS fall, no `Done`. -/
theorem test_reset_in_operation :
    (nextOf (exec (.putc 0xFF) { State.reset with rstAfter := some 7 })).map
      (fun t => (t.out, t.status.word, t.upc, t.trace.getLast?)) =
      some (Latches.reset, 0b000, 0, some .reset) := by decide

/-- R62: a string byte that has not arrived. -/
theorem test_missing_byte :
    (nextOf (exec (.puts 2) { State.reset with payload := [0x48] })).map
      (fun t => (t.out.word, t.status.busy, t.upc, t.cnt)) =
      some (0b100001, true, 19, 1) := by decide

/-- R210: 15000 us at 1 MHz are 15000 cycles, 1 us at 1.5 MHz is 2. -/
theorem test_wait_cycles :
    waitCycles { params with clkHz := 1000000 } .pwr = 15000 ∧
    waitCycles { params with clkHz := 1500000 } .enHold = 2 := by decide

/-! ## Witnesses: for each obligation with hypotheses, a state and operands that meet all of them -/

/-- A reset exactly `n` micro-steps away does not come within them: the boundary. -/
theorem noReset_at {n : Nat} {s : State} (h : s.rstAfter = some n) : NoResetWithin n s := by
  intro k hk
  rw [h] at hk
  cases hk
  exact Nat.le_refl _

theorem noReset_none {n : Nat} {s : State} (h : s.rstAfter = none) : NoResetWithin n s := by
  intro k hk
  rw [h] at hk
  cases hk

/-- A string that is on the channel is ready. -/
theorem readyString {len : Nat} {s : State} (h : len ≤ s.payload.length) :
    StringReady (.puts len) s := fun _ e => by cases e; exact h

/-- An operation that carries no string is ready. -/
theorem noString {i : Instr} {s : State} (h : (match i with | .puts _ => false | _ => true) = true) :
    StringReady i s := fun _ e => by subst e; cases h

theorem params_are_ideal : IdealCollaborators params := ⟨rfl, rfl⟩

/-- A busy state: PUTC 'A' runs and stands at its byte write. -/
def midPutc : State := midOperation State.reset (.putc 0x41) 2

theorem witness_DecodeOfEncodeIsTheInstruction :
    (Instr.puts 0).WellFormed ∧ (Instr.puts 255).WellFormed ∧
      (Instr.lcdSetDdram 0x7F).WellFormed := by decide

theorem witness_AssemblerLinesHaveTheirWords :
    (List.replicate 255 (0x41 : Byte)).length ≤ 255 ∧ ([] : List Byte).length ≤ 255 := by decide

theorem witness_StepRunsTheDecodedInstruction_idle :
    State.reset.rstAfter ≠ some 0 ∧ State.reset.status.busy = false ∧
      { State.reset with offers := [0x10000] }.offers = 0x10000 :: [] ∧
      decode (.host 0x10000) = .ok .clear := by decide

theorem witness_StepRunsTheDecodedInstruction_busy :
    midPutc.rstAfter ≠ some 0 ∧ midPutc.status.busy = true ∧
      midPutc.position = some (.write (.lit 0x41) .character, 0) ∧
      (Stmt.write (.lit 0x41) .character).busWord params midPutc = some (.lcdByte .high 0x41) ∧
      decode (.lcdByte .high 0x41) = .ok (.lcdData 0x41) := by decide

/-- Inside the pulse of a byte, and at a string byte that has come after a wait. -/
theorem witness_StepRunsTheDecodedInstruction_microStep :
    let s := midOperation State.reset (.putc 0x41) 7
    let t : State := { midOperation State.reset (.puts 1) 2 with cnt := 1, payload := [0x48] }
    s.rstAfter ≠ some 0 ∧ s.status.busy = true ∧ s.nextEmission params = none ∧
      s.nextEmission { params with longLevel := .low } = none ∧
      t.rstAfter ≠ some 0 ∧ t.status.busy = true ∧ t.nextEmission params = none := by decide

/-- An instance that is not this one: the other reading of LONG_LEVEL (C1), and strict rows. -/
def otherParams : Params := { params with longLevel := .low, strictRow := true }

theorem witness_StepTakesTheParametersAsArguments :
    midPutc.rstAfter ≠ some 0 ∧ midPutc.status.busy = true ∧
      midPutc.position = some (.write (.lit 0x41) .character, 0) ∧
      (Stmt.write (.lit 0x41) .character).busWord otherParams midPutc =
        some (.lcdByte .high 0x41) ∧
      decode (.lcdByte .high 0x41) = .ok (.lcdData 0x41) ∧
      State.reset.rstAfter ≠ some 0 ∧ State.reset.status.busy = false ∧ State.reset.offers = [] ∧
      { State.reset with offers := [0x10000] }.offers = 0x10000 :: [] ∧
      decode (.host 0x10000) = .ok .clear := by decide

theorem witness_StepRunsTheDecodedInstruction_wait :
    State.reset.rstAfter ≠ some 0 ∧ State.reset.status.busy = false ∧ State.reset.offers = [] := by
  decide

theorem witness_BusyEngineAcceptsNothing :
    midPutc.status.busy = true ∧ (nextOf (step midPutc)).isSome = true := by decide

theorem witness_ResetAbandonsWhateverRuns :
    { midPutc with rstAfter := some 0 }.rstAfter = some 0 := by decide

/-- At the first micro-step and at the last. -/
theorem witness_ResetInsideAnOperationCutsItShort :
    isHostOp (.puts 1) = true ∧
      StringReady (.puts 1) { State.reset with payload := [0x48], rstAfter := some 18 } ∧
      { State.reset with payload := [0x48], rstAfter := some 0 }.rstAfter = some 0 ∧
      0 < microCount (.puts 1) ∧
      { State.reset with payload := [0x48], rstAfter := some 18 }.rstAfter = some 18 ∧
      18 < microCount (.puts 1) :=
  ⟨rfl, readyString (by decide), rfl, by decide, rfl, by decide⟩

theorem witness_InitPerformsTheHandshake :
    NoResetWithin 119 { State.reset with rstAfter := some 119 } ∧ IdealCollaborators params :=
  ⟨noReset_at rfl, params_are_ideal⟩

theorem witness_ClearWritesItsCommand :
    NoResetWithin 17 { State.reset with rstAfter := some 17 } ∧ IdealCollaborators params :=
  ⟨noReset_at rfl, params_are_ideal⟩

theorem witness_SetcurSendsTheMappedAddress :
    NoResetWithin 18 { State.reset with rstAfter := some 18 } ∧ IdealCollaborators params ∧
      rowRefused params 3 = false ∧ params.nRows = 2 :=
  ⟨noReset_at rfl, params_are_ideal, rfl, rfl⟩

/-- With strict rows: the two rows that are not refused, and the two next to them that are (R184). -/
theorem witness_SetcurSendsTheMappedAddress_strict :
    IdealCollaborators otherParams ∧ rowRefused otherParams 1 = false ∧
      rowRefused otherParams 2 = false ∧ rowRefused otherParams 0 = true ∧
      rowRefused otherParams 3 = true := ⟨⟨rfl, rfl⟩, by decide⟩

theorem witness_PutcSendsOneCharacter :
    NoResetWithin 19 { State.reset with rstAfter := some 19 } ∧ IdealCollaborators params :=
  ⟨noReset_at rfl, params_are_ideal⟩

theorem witness_PutsSendsTheStringInOrder :
    { State.reset with payload := [0x48, 0x69] }.payload = [0x48] ++ [0x69] ∧
      NoResetWithin 19 { State.reset with payload := [0x48, 0x69], rstAfter := some 19 } ∧
      IdealCollaborators params := ⟨rfl, noReset_at rfl, params_are_ideal⟩

theorem witness_EmptyStringOnlyTogglesRs :
    NoResetWithin 2 { State.reset with rstAfter := some 2 } ∧ State.reset.out.rs = .low :=
  ⟨noReset_at rfl, rfl⟩

theorem witness_PutsWaitsForAMissingByte :
    { State.reset with payload := [0x48] }.payload.length < 2 ∧
      NoResetWithin 19 { State.reset with payload := [0x48], rstAfter := some 19 } :=
  ⟨by decide, noReset_at rfl⟩

/-- A PUTS of one byte that waits for it. -/
def starved : State := { midOperation State.reset (.puts 1) 2 with cnt := 1 }

theorem witness_WaitingForAByteChangesNothing :
    starved.rstAfter ≠ some 0 ∧ starved.status.busy = true ∧
      starved.currentMicro = some .startStringByte ∧ starved.payload = [] := by decide

theorem witness_WrbWritesTheByte :
    NoResetWithin 17 { State.reset with rstAfter := some 17 } ∧ IdealCollaborators params :=
  ⟨noReset_at rfl, params_are_ideal⟩

theorem witness_CommandRowsAreByteWrites :
    NoResetWithin 17 { State.reset with rstAfter := some 17 } ∧
      ∃ a : BitVec 7, Instr.lcdSetDdram 0x7F = .lcdSetDdram a ∧
        (0xFF : Byte).toNat = 0x80 + a.toNat :=
  ⟨noReset_at rfl, 0x7F, rfl, rfl⟩

theorem witness_DataRowIsACharacterWrite :
    NoResetWithin 17 { State.reset with rstAfter := some 17 } := noReset_at rfl

theorem witness_RawNibbleRowsPulseOnce :
    NoResetWithin 7 { State.reset with rstAfter := some 7 } := noReset_at rfl

theorem witness_MapIsTheMapper : (0 : Byte) ≠ 1 ∧ (0 : Byte) ≠ 2 ∧ (255 : Byte) ≠ 2 := by decide

theorem witness_SetAddressByteIsTheOr : (0x7F : Byte).toNat < 0x80 := by decide

theorem witness_SettleDelayFollowsTheReadBack :
    params.collabFaults = false ∧ params.rsLoopback = true ∧
      { params with rsLoopback := false }.collabFaults = false ∧
      { params with rsLoopback := false }.rsLoopback = false ∧
      { State.reset with rsIn := [.high] }.rsIn = .high :: [] ∧ State.reset.rsIn = [] ∧
      params.tShortMinUs ≤ params.tLongMinUs := by decide

theorem witness_LeastTimesAreAsTabled :
    (Instr.puts 0 = .puts 0 ∧ ([] : List Byte) = []) ∧ Instr.reserved6 = .reserved6 := by decide

theorem witness_ForeignRsDecidesTheWaits :
    { params with rsLoopback := false }.collabFaults = false ∧
      { params with rsLoopback := false }.rsLoopback = false ∧
      { State.reset with rsIn := [.high, .low] }.rsIn = .high :: .low :: [] ∧
      NoResetWithin 17 { State.reset with rsIn := [.high, .low], rstAfter := some 17 } :=
  ⟨rfl, rfl, rfl, noReset_at rfl⟩

theorem witness_ConditionsHaveExactlyTheirCauses :
    isHostOp .reserved6 = true ∧ isHostOp .init = true := by decide

theorem witness_CollaboratorFailureEndsTheOperation :
    let P : Params := { params with collabFaults := true }
    let s : State := { State.reset with failIn := List.replicate 18 false ++ true :: [] }
    P.collabFaults = true ∧ P.rsLoopback = true ∧ isHostOp .clear = true ∧ RowAccepted P .clear ∧
      StringReady .clear s ∧ NoResetWithin (microCount .clear) s ∧
      18 < (fullEvents P (stringOf s .clear) .clear).length ∧
      s.failIn = List.replicate 18 false ++ true :: [] :=
  ⟨rfl, rfl, rfl, (fun _ _ e => by cases e), noString rfl, noReset_none (by rfl), by decide, rfl⟩

/-- With strict rows: a SETCUR whose row is accepted, failing at its first call, and one whose row is refused. -/
theorem witness_CollaboratorFailureEndsTheOperation_setcur :
    let P : Params := { otherParams with collabFaults := true }
    let s : State := { State.reset with failIn := [true] }
    P.collabFaults = true ∧ P.rsLoopback = true ∧ isHostOp (.setcur 2 5) = true ∧
      RowAccepted P (.setcur 2 5) ∧ StringReady (.setcur 2 5) s ∧
      NoResetWithin (microCount (.setcur 2 5)) s ∧
      0 < (fullEvents P (stringOf s (.setcur 2 5)) (.setcur 2 5)).length ∧
      s.failIn = List.replicate 0 false ++ true :: [] ∧ rowRefused P 3 = true :=
  ⟨rfl, rfl, rfl, (fun _ _ e => by cases e; rfl), noString rfl, noReset_none (by rfl), by decide, rfl,
    by decide⟩

theorem witness_EngineInvariant_idle : EngineInv State.reset :=
  ⟨fun _ => ⟨rfl, rfl⟩, fun h => by cases h⟩

/-- A busy state of the invariant, whose step answers a next state, in this instance and in another. -/
theorem witness_StepKeepsTheEngineInvariant :
    EngineInv midPutc ∧ (nextOf (step midPutc)).isSome = true ∧
      IdealCollaborators otherParams ∧ (nextOf (stepWith otherParams midPutc)).isSome = true :=
  ⟨⟨fun h => (by cases h),
    fun _ => ⟨⟨_, (by decide : midPutc.currentMicro = some (.startByte (.lit 0x41) .character)),
      rfl⟩, by decide, fun _ h => by
        rw [show midPutc.running = .putc 0x41 by decide] at h; cases h⟩⟩, by decide, ⟨rfl, rfl⟩,
    by decide⟩

theorem witness_MicroStepsMakeTheOperation :
    decodeWord 0x40101 = .puts 1 ∧ 0 < microCount (.puts 1) ∧
      StringReady (.puts 1) { State.reset with cw := 0x40101, payload := [0x48] } :=
  ⟨by decide, by decide, readyString (by decide)⟩

theorem witness_AWaitForBytesLeavesNoMark :
    decodeWord 0x40102 = .puts ([0x48].length + [0x69].length) ∧ [(0x69 : Byte)] ≠ [] ∧
      (nextOf (exec (.puts ([0x48].length + [0x69].length))
        { State.reset with cw := 0x40102, payload := [0x48] })).isSome = true := by decide

theorem witness_InstructionsTouchOnlyTheirLatches :
    (nextOf (exec (.setcur 2 5) State.reset)).isSome = true ∧ State.reset.rstAfter = none := by
  decide

theorem witness_LatchesRestAtAnOperationBoundary :
    isHostOp (.puts 0) = true ∧ State.reset.out.en = .low ∧ StringReady (.puts 0) State.reset ∧
      NoResetWithin (microCount (.puts 0)) { State.reset with rstAfter := some 2 } :=
  ⟨rfl, rfl, readyString (by decide), noReset_at rfl⟩

theorem witness_FullTraceIsFreeOfHistory :
    isHostOp .clear = true ∧ StringReady .clear State.reset ∧ StringReady .clear afterInit ∧
      stringOf State.reset .clear = stringOf afterInit .clear ∧
      NoResetWithin (microCount .clear) State.reset ∧ NoResetWithin (microCount .clear) afterInit :=
  ⟨rfl, noString rfl, noString rfl, rfl, noReset_none (by rfl), noReset_none (by rfl)⟩

theorem witness_ControllerTakesExactlyTheNibbles :
    isHostOp (.puts 1) = true ∧ StringReady (.puts 1) { State.reset with payload := [0x48] } ∧
      NoResetWithin (microCount (.puts 1)) { State.reset with payload := [0x48] } ∧
      State.reset.out.en = .low :=
  ⟨rfl, readyString (by decide), noReset_none (by rfl), rfl⟩

theorem witness_DataLineOrderIsInvisible :
    SameUpToDataOrder [.drive .d4 .high, .drive .d7 .low] [.drive .d7 .low, .drive .d4 .high] :=
  .swap .d4 .d7 .high .low [] rfl rfl (by decide)

/-- There is a LineAssignment, and this instance has one. -/
theorem witness_PinsCarryTheirLatches :
    (LineAssignment.mk 0 1 2 3 4 5 (by decide)).id .d7 = 5 ∧ params.lines = Config.lines :=
  ⟨rfl, rfl⟩

end Sys2Proof.Tests
end

/-! PROOFS. The state (10_state.md): the state after reset (R31), the latches at an operation boundary (R32), the full trace and history (R33). -/

namespace Sys2Proof.Machine

/-- R24: with UPC 0 no micro-step is next, whatever word CW holds. -/
theorem currentMicro_of_upc_zero {s : State} (h : s.upc = 0) : s.currentMicro = none := by
  have hp : s.position = none := by rw [State.position, h]; cases s.running <;> rfl
  rw [State.currentMicro, hp]
  rfl

/-- R81, R200: the status with which a host operation ends that nothing cuts short and whose row is not refused: an operation without micro-steps ends at decode. -/
def endCode (i : Instr) : ErrCode := if microCount i = 0 then .invalidArgument else .ok

/-- A host operation that nothing cuts short, whether it reaches the bus or ends at decode: idle, the spec's full trace and then its `Done`, and the latches as the drives of that trace left them. -/
theorem exec_runs_fullEvents {i : Instr} {s : State} (h : isHostOp i = true)
    (hs : StringReady i s) (hr : NoResetWithin (microCount i) s) :
    ∃ t, exec i s = .next t ∧ t.status = { busy := false, err := endCode i } ∧
      t.trace = s.trace ++ (fullEvents params (stringOf s i) i ++ [.done (endCode i)]) ∧
      t.out = (fullEvents params (stringOf s i) i).foldl Latches.after s.out := by
  rcases Nat.eq_zero_or_pos (microCount i) with hc | hc
  · obtain ⟨hi, he⟩ := exec_rejected h hc s
    have hn : fullEvents params (stringOf s i) i = [] := by
      obtain rfl | rfl | rfl := hi <;> rfl
    exact ⟨_, he, by simp [endCode, hc], by simp [endCode, hc, hn], by simp [hn]⟩
  · have hc' : microCount i ≠ 0 := Nat.ne_of_gt hc
    refine ⟨_, exec_completes h hc hs hr, by simp [endCode, hc'], ?_, ?_⟩
    · simp [progressed, effects_trace, endCode, hc']
    · simp [progressed, effects_out, eventsOf_program params h (s := begin s) hs]

/-- R32: the latches in which a host operation leaves the bus, from the latches `l` and with the string `bs`. -/
def boundaryLatches (P : Params) (bs : List Byte) (l : Latches) : Instr → Latches
  | .init => restingLatches .low (lowNibble P.cmdDispOn)
  | .clear => restingLatches .low (lowNibble P.cmdClear)
  | .setcur row column => restingLatches .low (lowNibble (P.cmdSetDdram ||| map P row column))
  | .putc c => restingLatches .low (lowNibble c)
  | .puts _ => afterString .low bs l
  | .wrb b m => restingLatches m.level (lowNibble b)
  | .putsNull | .reserved6 | .reserved7 => l
  | .lcdClear | .lcdEntry | .lcdDispOff | .lcdDispOn | .lcdFuncset => l
  | .lcdSetDdram _ | .lcdData _ | .lcdNibFs8 | .lcdNibFs4 => l

/-- R32: what the drives of a full trace come to, whatever the latches were. -/
theorem after_fullEvents (P : Params) (bs : List Byte) (l : Latches) (i : Instr) :
    (fullEvents P bs i).foldl Latches.after l = boundaryLatches P bs l i := by
  cases i with
  | init =>
    simp only [fullEvents, initEvents, handshakeEvents, List.foldl_append, after_byteEvents]
    rfl
  | clear => exact after_byteEvents P _ _ l
  | wrb b m => exact after_byteEvents P b m l
  | setcur row column =>
    simp only [fullEvents, List.foldl_append, after_byteEvents]
    rfl
  | putc c =>
    simp only [fullEvents, List.foldl_append, after_byteEvents]
    rfl
  | puts len =>
    simp only [fullEvents, List.foldl_append, after_stringEvents, boundaryLatches, afterString]
    cases bs.getLast? <;> rfl
  | putsNull | reserved6 | reserved7 => rfl
  | lcdClear | lcdEntry | lcdDispOff | lcdDispOn | lcdFuncset => rfl
  | lcdSetDdram _ | lcdData _ | lcdNibFs8 | lcdNibFs4 => rfl

/-- R32, R52: after a string D7 to D4 hold the low nibble of its last byte, or what they held. -/
theorem nibble_afterString (r : Level) (bs : List Byte) (l : Latches) :
    (afterString r bs l).nibble = (bs.getLast?.map lowNibble).getD l.nibble := by
  rw [afterString]
  cases bs.getLast? with
  | none => rfl
  | some b => exact nibble_restingLatches r (lowNibble b)

@[simp] theorem afterString_rs (r : Level) (bs : List Byte) (l : Latches) :
    (afterString r bs l).rs = r := by
  rw [afterString]
  cases bs.getLast? <;> rfl

theorem afterString_en (r : Level) (bs : List Byte) {l : Latches} (h : l.en = .low) :
    (afterString r bs l).en = .low := by
  rw [afterString]
  cases bs.getLast? with
  | none => exact h
  | some b => rfl

/-- R32: from EN Low an operation leaves EN Low. -/
theorem boundaryLatches_en (P : Params) (bs : List Byte) {l : Latches} (h : l.en = .low)
    (i : Instr) : (boundaryLatches P bs l i).en = .low := by
  cases i with
  | init | clear | setcur _ _ | putc _ | wrb _ _ => rfl
  | puts len => exact afterString_en .low bs h
  | putsNull | reserved6 | reserved7 => exact h
  | lcdClear | lcdEntry | lcdDispOff | lcdDispOn | lcdFuncset => exact h
  | lcdSetDdram _ | lcdData _ | lcdNibFs8 | lcdNibFs4 => exact h

/-- Settles O43: the latches are what the drives of the full trace leave (`after_fullEvents`), read row by row. -/
theorem latchesRestAtAnOperationBoundary : Obligations.LatchesRestAtAnOperationBoundary := by
  unfold Obligations.LatchesRestAtAnOperationBoundary
  intro i s hi hen hs hr
  obtain ⟨t, ht, hstatus, -, hout⟩ := exec_runs_fullEvents hi hs hr
  rw [after_fullEvents] at hout
  refine ⟨t, ht, by rw [hstatus], hout ▸ boundaryLatches_en params _ hen i, ?_⟩
  rw [hout]
  cases i with
  | init => exact (by decide : (restingLatches .low (lowNibble 0x0C)).word = 0b110000)
  | clear => exact (by decide : (restingLatches .low (lowNibble 0x01)).word = 0b000100)
  | setcur row column => exact ⟨rfl, nibble_restingLatches _ _⟩
  | putc c => exact ⟨rfl, nibble_restingLatches _ _⟩
  | wrb b m => exact ⟨rfl, nibble_restingLatches _ _⟩
  | puts len => exact ⟨afterString_rs _ _ _, nibble_afterString _ _ _⟩
  | putsNull | reserved6 | reserved7 => rfl
  | lcdClear | lcdEntry | lcdDispOff | lcdDispOn | lcdFuncset => cases hi
  | lcdSetDdram _ | lcdData _ | lcdNibFs8 | lcdNibFs4 => cases hi

/-- Settles O44: both traces grow by `fullEvents` and the `Done`, which speak of the operands and the string alone. -/
theorem fullTraceIsFreeOfHistory : Obligations.FullTraceIsFreeOfHistory := by
  unfold Obligations.FullTraceIsFreeOfHistory
  intro i s s' hi hs hs' hstr hr hr'
  obtain ⟨t, ht, -, htrace, -⟩ := exec_runs_fullEvents hi hs hr
  obtain ⟨t', ht', -, htrace', -⟩ := exec_runs_fullEvents hi hs' hr'
  exact ⟨t, t', _, ht, ht', htrace, hstr ▸ htrace'⟩

/-- Settles O10: the values of the reset state; UPC 0 is idle (`currentMicro_of_upc_zero`). -/
theorem resetStateIsIdleAndLow : Obligations.ResetStateIsIdleAndLow := by
  unfold Obligations.ResetStateIsIdleAndLow
  refine ⟨by decide, by decide, rfl, fun l => ?_, currentMicro_of_upc_zero rfl⟩
  cases l <;> rfl

end Sys2Proof.Machine

/-! PROOFS. Encoding (30_encoding.md): the bits an operation ignores (R73) and the numbers of the status codes (R81). -/

namespace Sys2Proof

/-- R72: every value of `OP`. -/
theorem opcode_cases (op : BitVec 3) :
    op = 0 ∨ op = 1 ∨ op = 2 ∨ op = 3 ∨ op = 4 ∨ op = 5 ∨ op = 6 ∨ op = 7 := by
  revert op
  decide

/-- R72: the bits of `A` that an operation uses. -/
def usedA (op : BitVec 3) : Byte :=
  match op.toNat with
  | 2 => 0xFF
  | 4 | 5 => 1
  | _ => 0

/-- R72: the bits of `B` that an operation uses; with opcode 4 `A[0]` decides. -/
def usedB (op : BitVec 3) (aLow : Bool) : Byte :=
  match op.toNat with
  | 2 | 3 | 5 => 0xFF
  | 4 => if aLow then 0xFF else 0
  | _ => 0

/-- R73: the mask by its fields; every operation uses the whole opcode. -/
theorem usedMask_eq_packWord (op : BitVec 3) (aLow : Bool) :
    usedMask op aLow = packWord 7 (usedA op) (usedB op aLow) := by
  revert op aLow
  decide

/-- Clearing the ignored bits clears them in `A` and in `B` and keeps `OP`. -/
theorem canonicalWord_packWord (op : BitVec 3) (a b : Byte) :
    canonicalWord (packWord op a b) =
      packWord op (a &&& usedA op) (b &&& usedB op (a.getLsbD 0)) := by
  have hop : op &&& 7 = op := BitVec.and_allOnes
  rw [canonicalWord, opField_packWord, aField_packWord, usedMask_eq_packWord, packWord_and, hop]

/-- A field that is used whole stays. -/
@[simp] theorem byte_and_ff (b : Byte) : b &&& 255#8 = b := BitVec.and_allOnes

/-- A field of which only bit 0 is used keeps that bit. -/
theorem byte_and_one (a : Byte) : a &&& 1#8 = (BitVec.ofBool a[0]).setWidth 8 :=
  BitVec.and_one_eq_setWidth_ofBool_getLsbD

@[simp] theorem RsMode.toBit_ofBit (x : Bool) : (RsMode.ofBit x).toBit = x := by cases x <;> rfl

/-- R73: the encoder writes the ignored bits as 0, opcode by opcode. -/
theorem encode_decodeWord_packWord (op : BitVec 3) (a b : Byte) :
    encode (decodeWord (packWord op a b)) = .host (canonicalWord (packWord op a b)) := by
  rw [decodeWord_packWord, canonicalWord_packWord]
  rcases opcode_cases op with rfl | rfl | rfl | rfl | rfl | rfl | rfl | rfl
  · simp [encode, usedA, usedB]
  · simp [encode, usedA, usedB]
  · simp [encode, usedA, usedB]
  · simp [encode, usedA, usedB]
  · cases h : a[0] <;> simp [encode, usedA, usedB, byte_and_one, h]
  · simp [encode, usedA, usedB, byte_and_one]
  · simp [encode, usedA, usedB]
  · simp [encode, usedA, usedB]

/-- What a command word decodes to is read back from its encoding: a PUTS of a word has a length of one byte. -/
theorem decode_encode_decodeWord (w : CmdWord) :
    decode (encode (decodeWord w)) = .ok (decodeWord w) := by
  generalize hi : decodeWord w = i
  unfold decodeWord at hi
  split at hi
  · exact hi ▸ Laws.RoundTrip.init rfl
  · exact hi ▸ Laws.RoundTrip.clear rfl
  · exact hi ▸ Laws.RoundTrip.setcur _ _ rfl
  · exact hi ▸ Laws.RoundTrip.putc _ rfl
  · split at hi
    · exact hi ▸ Laws.RoundTrip.puts _ (decide_eq_true (Nat.le_of_lt_succ (bField w).isLt))
    · exact hi ▸ Laws.RoundTrip.putsNull rfl
  · exact hi ▸ Laws.RoundTrip.wrb _ _ rfl
  · exact hi ▸ Laws.RoundTrip.reserved6 rfl
  · exact hi ▸ Laws.RoundTrip.reserved7 rfl

/-- Settles O2: a word is its three fields, and the encoder writes the ignored bits of each as 0 (`encode_decodeWord_packWord`); the round trip then gives that the decoder does not see them. -/
theorem ignoredBitsHaveNoEffect : Obligations.IgnoredBitsHaveNoEffect := by
  unfold Obligations.IgnoredBitsHaveNoEffect
  intro w
  have hw : encode (decodeWord w) = .host (canonicalWord w) := by
    rw [eq_packWord w]
    exact encode_decodeWord_packWord _ _ _
  have hd : decode (.host (canonicalWord w)) = .ok (decodeWord w) :=
    hw ▸ decode_encode_decodeWord w
  exact ⟨Except.ok.inj hd, hw⟩

/-- Settles O31: the three codes as R81 numbers them, none of which is 3. -/
theorem statusCodesAreAsNumbered : Obligations.StatusCodesAreAsNumbered := by
  unfold Obligations.StatusCodesAreAsNumbered
  refine ⟨rfl, rfl, rfl, fun e => ?_⟩
  cases e <;> decide

end Sys2Proof

/-! PROOFS. The nibble transport (40_nibble_transport.md): the host's byte write (R104) and the order on the bus (R60, R105). -/

namespace Sys2Proof.Machine

/-! The order on the bus as paths from phase to phase, one lemma for each piece the traces are made of. -/

/-- R105: the events `es`, each allowed in its turn, take the bus from the phase `p` to the phase `q`. -/
def BusPath (p : BusPhase) (es : List Event) (q : BusPhase) : Prop := es.foldlM busStep p = some q

theorem orderly_iff {es : List Event} : orderly es = true ↔ BusPath .rest es .rest := beq_iff_eq

theorem BusPath.append {p q r : BusPhase} {es fs : List Event} (h : BusPath p es q)
    (k : BusPath q fs r) : BusPath p (es ++ fs) r := by
  rw [BusPath, List.foldlM_append, h]
  exact k

theorem BusPath.split {p r : BusPhase} {es fs : List Event} (h : BusPath p (es ++ fs) r) :
    ∃ q, BusPath p es q ∧ BusPath q fs r := by
  rw [BusPath, List.foldlM_append] at h
  exact Option.bind_eq_some_iff.mp h

/-- R232: a reset may come in every phase, and the bus rests after it. -/
theorem busPath_reset (p : BusPhase) : BusPath p [.reset] .rest := by cases p <;> rfl

/-- R105 (c): RS is written only while the bus rests. -/
theorem BusPath.rest_of_rs {p q : BusPhase} {v : Level} {es : List Event}
    (h : BusPath p (.drive .rs v :: es) q) : p = .rest := by
  cases p with
  | rest => rfl
  | driving _ | raised _ | held _ | fallen _ | sampled _ | between => cases h

theorem busPath_pulse (P : Params) (second : Bool) :
    BusPath (.driving second) (pulseEvents P) (.fallen second) := rfl

/-- R102: the settle delay after a nibble, whichever class RS selects. -/
theorem busPath_settle (P : Params) (r : Level) (second : Bool) :
    BusPath (.fallen second) (settleEvents P r) (if second then .rest else .between) := by
  rw [settleEvents]
  split <;> rfl

/-- R103, R131: a raw nibble and the wait of INIT after it. -/
theorem BusPath.raw {p : BusPhase} {es : List Event} (h : BusPath p es .rest) {P : Params}
    {n : Nibble} {k : WaitClass} {us : Nat} (hk : isSequencerWait k = true) :
    BusPath p (es ++ rawEvents P n ++ [.wait k us]) .rest := by
  have hraw : BusPath .rest (rawEvents P n) (.fallen false) := rfl
  have hwait : BusPath (.fallen false) [.wait k us] .rest := by simp [BusPath, busStep, hk]
  exact (h.append hraw).append hwait

/-- R104: a byte write, high nibble first. -/
theorem BusPath.byte {p : BusPhase} {es : List Event} (h : BusPath p es .rest) {P : Params}
    {b : Byte} {m : RsMode} : BusPath p (es ++ byteEvents P b m) .rest := by
  have hrs : BusPath .rest [.drive .rs m.level] .rest := rfl
  have hhigh : BusPath .rest (nibbleEvents (highNibble b)) (.driving false) := rfl
  have hlow : BusPath .between (nibbleEvents (lowNibble b)) (.driving true) := rfl
  exact h.append ((((((hrs.append hhigh).append (busPath_pulse P false)).append
    (busPath_settle P m.level false)).append hlow).append (busPath_pulse P true)).append
    (busPath_settle P m.level true))

/-- A drive of RS while the bus rests. -/
theorem BusPath.rs {p : BusPhase} {es : List Event} (h : BusPath p es .rest) {v : Level} :
    BusPath p (es ++ [.drive .rs v]) .rest :=
  h.append rfl

/-- The bus rests before any event; longer traces are built from here. -/
theorem busPath_nil : BusPath .rest [] .rest := rfl

/-! The same of the programs. -/

/-- R154: a pass through the loop sends a byte, whether or not the channel holds it. -/
theorem eventsOf_writeString_headD (P : Params) (s : State) :
    eventsOf P Stmt.writeString.expand s = byteEvents P (s.payload.headD s.byte) .character := by
  rw [Stmt.expand, eventsOf_cons, eventsOf_sendByte]
  simp [effect, microEvents, Latches.set, byteEvents, sampledByteEvents, RsMode.level]

theorem busPath_strings (P : Params) (n : Nat) (s : State) :
    BusPath .rest (eventsOf P (micros (List.replicate n .writeString)) s) .rest := by
  induction n generalizing s with
  | zero => rfl
  | succ n ih =>
    rw [List.replicate_succ, eventsOf_micros_cons, eventsOf_writeString_headD]
    exact busPath_nil.byte.append (ih _)

/-- R131: INIT's handshake. -/
theorem busPath_init (P : Params) : BusPath .rest (initEvents P) .rest := by
  have hstart : BusPath .rest [.drive .rs .low, .wait .pwr P.tPwrMinUs] .rest := rfl
  exact ((((hstart.raw rfl).raw rfl).raw rfl).raw rfl).byte.byte.byte.byte.byte

/-- R105: an uninterrupted operation keeps the order, also where a string byte is missing. -/
theorem busPath_program (P : Params) {i : Instr} (h : isHostOp i = true) (s : State) :
    BusPath .rest (eventsOf P (micros (program i)) s) .rest := by
  by_cases hputs : ∃ len, i = .puts len
  · obtain ⟨len, rfl⟩ := hputs
    rw [program, putsProgram, eventsOf_micros_cons, micros_append, eventsOf_append,
      eventsOf_openString, ← List.append_assoc]
    exact (busPath_nil.rs.append (busPath_strings P len _)).rs
  rw [eventsOf_program P h fun len e => absurd ⟨len, e⟩ hputs]
  cases i with
  | init => exact busPath_init P
  | clear | wrb _ _ => exact busPath_nil.byte
  | setcur row column => exact busPath_nil.rs.byte
  | putc c => exact busPath_nil.rs.byte.rs
  | puts len => exact absurd ⟨len, rfl⟩ hputs
  | putsNull | reserved6 | reserved7 => exact busPath_nil
  | lcdClear | lcdEntry | lcdDispOff | lcdDispOn | lcdFuncset => cases h
  | lcdSetDdram _ | lcdData _ | lcdNibFs8 | lcdNibFs4 => cases h

/-! Where a run leaves off. -/

/-- Wherever a sequence that keeps the order is cut, the bus has come to a phase from which what is left keeps it too. -/
theorem BusPath.take_drop {P : Params} {ms : List Micro} {s : State} {r : BusPhase}
    (h : BusPath .rest (eventsOf P ms s) r) (k : Nat) :
    ∃ q, BusPath .rest (eventsOf P (ms.take k) s) q ∧
      BusPath q (eventsOf P (ms.drop k) (effects P (ms.take k) s)) r := by
  rw [← List.take_append_drop k ms, eventsOf_append] at h
  exact h.split

/-- A run of an orderly sequence leaves the bus at rest wherever it leaves off: a reset brings it to rest, and a missing string byte stops it before a drive of RS, where it rests. -/
theorem runMicros_busPath {P : Params} (hP : IdealCollaborators P) {ms : List Micro} {s : State}
    (h : BusPath .rest (eventsOf P ms s) .rest) :
    ∃ es, (runMicros P ms s).state.trace = s.trace ++ es ∧ BusPath .rest es .rest := by
  rcases runMicros_outcome hP ms s with hgo | ⟨k, -, ⟨hreset, -⟩ | ⟨hwait, hk, -⟩⟩
  · exact ⟨_, by simp [hgo, progressed, effects_trace], h⟩
  · obtain ⟨q, hdone, -⟩ := h.take_drop k
    exact ⟨_, by simp [hreset, progressed, effects_trace], hdone.append (busPath_reset q)⟩
  · obtain ⟨q, hdone, htodo⟩ := h.take_drop k
    rw [List.drop_eq_getElem?_toList_append, hk] at htodo
    obtain rfl : q = .rest := htodo.rest_of_rs
    exact ⟨_, by simp [hwait, progressed, effects_trace], hdone⟩

/-- R105: an operation that keeps the order when nothing cuts it short keeps it always. -/
theorem operate_orderly {P : Params} (hP : IdealCollaborators P) {p : List Stmt} {s : State}
    (h : BusPath .rest (eventsOf P (micros p) (begin s)) .rest) :
    ∃ (t : State) (es : List Event), operate P p s = .next t ∧ t.trace = s.trace ++ es ∧
      orderly es = true := by
  obtain ⟨es, htrace, hes⟩ := runMicros_busPath hP h
  rcases operate_cases P p s with ⟨t, hrun, hop⟩ | ⟨t, hrun, hop⟩
  · rw [hrun, Run.state_going, begin_trace] at htrace
    have hdone : BusPath .rest [.done .ok] .rest := rfl
    exact ⟨_, es ++ [.done .ok], hop, by simp [htrace], orderly_iff.mpr (hes.append hdone)⟩
  · rw [hrun, Run.state_halted, begin_trace] at htrace
    exact ⟨t, es, hop, htrace, orderly_iff.mpr hes⟩

/-- Settles O36: every program is a path of the bus (`busPath_program`), and cut anywhere it leaves the bus at rest (`operate_orderly`). -/
theorem everyOperationKeepsTheBusOrder : Obligations.EveryOperationKeepsTheBusOrder := by
  unfold Obligations.EveryOperationKeepsTheBusOrder
  intro i s hi
  rcases Nat.eq_zero_or_pos (microCount i) with hc | hc
  · exact ⟨_, [.done .invalidArgument], (exec_rejected hi hc s).2, by simp, rfl⟩
  · rw [exec_operation hi hc]
    exact operate_orderly params_ideal (busPath_program params hi (begin s))

/-- R104: WRB under any parameters with ideal collaborators. -/
theorem runWrb_completes {P : Params} (hP : IdealCollaborators P) (b : Byte) (m : RsMode)
    {s : State} (h : NoResetWithin 17 s) :
    runWrb P b m s = .next (completed 17 (byteEvents P b m)
      { s with byte := b, mode := m, out := restingLatches m.level (lowNibble b) }) := by
  have hevents : eventsOf P (micros (wrbProgram b m)) (begin s) = byteEvents P b m :=
    eventsOf_program P (i := .wrb b m) rfl fun _ e => nomatch e
  have heffects : effects P (micros (wrbProgram b m)) (begin s) =
      begin { s with byte := b, mode := m, out := restingLatches m.level (lowNibble b) } := by
    rw [wrbProgram, effects_micros_cons, effects_write]
    rfl
  exact operate_completes hP (length_program (i := .wrb b m) rfl) h (Nat.zero_le _) hevents
    heffects

/-- Settles O22: WRB is one byte write (`runWrb_completes`), and `exec` is that of the machine's parameters. -/
theorem wrbWritesTheByte : Obligations.WrbWritesTheByte := by
  unfold Obligations.WrbWritesTheByte
  exact ⟨fun b m _ h => runWrb_completes params_ideal b m h,
    fun _ b m _ hP h => runWrb_completes hP b m h⟩

end Sys2Proof.Machine

/-! PROOFS. The initialisation sequencer (41_init_sequencer.md): INIT's handshake (R131, R132, R136). -/

namespace Sys2Proof.Machine

/-- R136: of all that INIT writes only its last byte is left: the pulses and bytes before it leave no mark outside the trace. -/
theorem effects_initProgram {P : Params} (s : State) :
    effects P (micros initProgram) s =
      { s with
        byte := P.cmdDispOn, mode := .command
        out := restingLatches .low (lowNibble P.cmdDispOn) } := by
  simp only [initProgram, effects_micros_cons, effects_drive, effects_wait, effects_raw,
    effects_write]
  rfl

/-- R131: INIT under any parameters with ideal collaborators; the order of its bytes (R132) stands in `initEvents`, its end state (R136) in `effects_initProgram`. -/
theorem runInit_completes {P : Params} (hP : IdealCollaborators P) {s : State}
    (h : NoResetWithin 119 s) :
    runInit P s = .next (completed 119 (initEvents P)
      { s with
        byte := P.cmdDispOn, mode := .command
        out := restingLatches .low (lowNibble P.cmdDispOn) }) := by
  have hevents : eventsOf P (micros initProgram) (begin s) = initEvents P :=
    eventsOf_program P (i := .init) rfl fun _ e => nomatch e
  exact operate_completes hP (length_program (i := .init) rfl) h (Nat.zero_le _) hevents
    (effects_initProgram (begin s))

/-- Settles O13: `runInit_completes`; under the machine's parameters the nibbles and bytes of the handshake are those of this spec, and the low nibble of the last byte 0x0C is 0xC. -/
theorem initPerformsTheHandshake : Obligations.InitPerformsTheHandshake := by
  unfold Obligations.InitPerformsTheHandshake
  exact ⟨fun _ h => runInit_completes params_ideal h, fun _ _ hP h => runInit_completes hP h⟩

end Sys2Proof.Machine

/-! PROOFS. The command and data dispatcher (42_dispatcher.md): CLEAR (R151), PUTC (R153), PUTS (R154), and the operations that end at decode (R155, R215). -/

namespace Sys2Proof.Machine

/-- A host operation that nothing cuts short ends `completed` with the spec's full trace, in the state its program's writes lead to. -/
theorem execWith_completes {P : Params} (hP : IdealCollaborators P) {i : Instr} {s t : State}
    {bs : List Byte} (hi : isHostOp i = true) (hc : 0 < microCount i) (hrow : RowAccepted P i)
    (hs : StringReady i s) (hbs : stringOf s i = bs) (h : NoResetWithin (microCount i) s)
    (ht : effects P (micros (program i)) (begin s) = begin t) :
    execWith P i s = .next (completed (microCount i) (fullEvents P bs i) t) := by
  have hevents := eventsOf_program P hi (s := begin s) hs
  rw [stringOf_begin, hbs] at hevents
  rw [execWith_operation hi hc hrow]
  exact operate_completes hP (length_program hi) h (bytesTaken_program hi hs) hevents ht

theorem effects_clearProgram {P : Params} (s : State) :
    effects P (micros clearProgram) s =
      { s with
        byte := P.cmdClear, mode := .command
        out := restingLatches .low (lowNibble P.cmdClear) } := by
  rw [clearProgram, effects_micros_cons, effects_write]
  rfl

/-- R151: CLEAR under any parameters with ideal collaborators. -/
theorem runClear_completes {P : Params} (hP : IdealCollaborators P) {s : State}
    (h : NoResetWithin 17 s) :
    runClear P s = .next (completed 17 (byteEvents P P.cmdClear .command)
      { s with
        byte := P.cmdClear, mode := .command
        out := restingLatches .low (lowNibble P.cmdClear) }) :=
  execWith_completes (i := .clear) hP rfl (by decide) (fun _ _ e => nomatch e)
    (fun _ e => nomatch e) rfl h (effects_clearProgram (begin s))

/-- Settles O14: `runClear_completes`; under the machine's parameters the command is 0x01, and its low nibble 0x1 rests on the data lines. -/
theorem clearWritesItsCommand : Obligations.ClearWritesItsCommand := by
  unfold Obligations.ClearWritesItsCommand
  exact ⟨fun _ h => runClear_completes params_ideal h, fun _ _ hP h => runClear_completes hP h⟩

/-- R153: the drive of RS High before the byte leaves no mark outside the trace, the drive of RS Low after it does. -/
theorem effects_putcProgram {P : Params} (c : Byte) (s : State) :
    effects P (micros (putcProgram c)) s =
      { s with byte := c, mode := .character, out := restingLatches .low (lowNibble c) } := by
  simp only [putcProgram, effects_micros_cons, effects_drive, effects_write]
  rfl

/-- R153: PUTC under any parameters with ideal collaborators; that RS goes Low after the second settle delay is the place of its drive in the trace. -/
theorem runPutc_completes {P : Params} (hP : IdealCollaborators P) (c : Byte) {s : State}
    (h : NoResetWithin 19 s) :
    runPutc P c s =
      .next (completed 19 ([.drive .rs .high] ++ byteEvents P c .character ++ [.drive .rs .low])
        { s with byte := c, mode := .character, out := restingLatches .low (lowNibble c) }) :=
  execWith_completes (i := .putc c) hP rfl (Nat.zero_lt_succ 18) (fun _ _ e => nomatch e)
    (fun _ e => nomatch e) rfl h (effects_putcProgram c (begin s))

/-- Settles O16: `runPutc_completes`, of which `exec` is the case of the machine's parameters. -/
theorem putcSendsOneCharacter : Obligations.PutcSendsOneCharacter := by
  unfold Obligations.PutcSendsOneCharacter
  exact ⟨fun c _ h => runPutc_completes params_ideal c h,
    fun _ c _ hP h => runPutc_completes hP c h⟩

/-- R154: what PUTS writes for a string that is on the channel: of the bytes only the last leaves a mark, and without any (R156) only RS has moved. -/
theorem effects_putsProgram {P : Params} (bs rest : List Byte) {s : State}
    (h : s.payload = bs ++ rest) :
    effects P (micros (putsProgram bs.length)) s =
      { s with
        payload := rest, cnt := 0, byte := bs.getLast?.getD s.byte
        mode := if bs = [] then s.mode else .character
        out := afterString .low bs s.out } := by
  have hopen : (effects P (Stmt.openString bs.length).expand s).payload = bs ++ rest := h
  rw [putsProgram, effects_micros_cons, micros_append, effects_append,
    effects_strings bs rest hopen, effects_openString, effects_micros_cons, effects_drive]
  rcases List.eq_nil_or_concat bs with rfl | ⟨cs, b, rfl⟩
  · rfl
  · simp [sentString, afterString, Latches.set, restingLatches]

/-- R154: PUTS under any parameters with ideal collaborators, for a string that is on the channel, followed by `rest`. -/
theorem runPuts_completes {P : Params} (hP : IdealCollaborators P) {bs rest : List Byte}
    {s : State} (hs : s.payload = bs ++ rest) (h : NoResetWithin (2 + 17 * bs.length) s) :
    runPuts P bs.length s =
      .next (completed (2 + 17 * bs.length)
        ([.drive .rs .high] ++ stringEvents P bs ++ [.drive .rs .low])
        { s with
          payload := rest, cnt := 0, byte := bs.getLast?.getD s.byte
          mode := if bs = [] then s.mode else .character
          out := afterString .low bs s.out }) := by
  have hready : StringReady (.puts bs.length) s := by
    rintro _ ⟨⟩
    simp [hs]
  have hstring : stringOf s (.puts bs.length) = bs := by simp [stringOf, hs]
  exact execWith_completes (i := .puts bs.length) hP rfl (Nat.add_pos_left Nat.two_pos _)
    (fun _ _ e => nomatch e) hready hstring h (effects_putsProgram bs rest (s := begin s) hs)

/-- Settles O17: `runPuts_completes`, of which `exec` is the case of the machine's parameters. -/
theorem putsSendsTheStringInOrder : Obligations.PutsSendsTheStringInOrder := by
  unfold Obligations.PutsSendsTheStringInOrder
  exact ⟨fun _ _ _ hs h => runPuts_completes params_ideal hs h,
    fun _ _ _ _ hP hs h => runPuts_completes hP hs h⟩

/-- Settles O21: the three are the host operations without micro-steps, which end at decode (`exec_rejected`); BUSY and UPC of the acceptance are overwritten by the `Done`. -/
theorem nullAndReservedEndWithInvalidArgument :
    Obligations.NullAndReservedEndWithInvalidArgument := by
  unfold Obligations.NullAndReservedEndWithInvalidArgument
  rintro i s (rfl | rfl | rfl) <;> exact (exec_rejected rfl rfl s).2

end Sys2Proof.Machine

/-! PROOFS. The address mapper (43_address_mapper.md): the three rows of MAP (R180, R181, R182) and its table of values (R186). -/

namespace Sys2Proof.Machine

theorem map_row_one {P : Params} (h : P.nRows = 2) (column : Byte) :
    map P 1 column = column - 1 := by
  rw [map_eq h, if_pos rfl]

theorem map_row_two {P : Params} (h : P.nRows = 2) (column : Byte) :
    map P 2 column = P.row2Base + (column - 1) := by
  rw [map_eq h, if_neg (by decide), if_pos rfl]

/-- R182: any other row, with no check of the column. -/
theorem map_row_other {P : Params} (h : P.nRows = 2) {row : Byte} (h1 : row ≠ 1) (h2 : row ≠ 2)
    (column : Byte) : map P row column = 0 := by
  rw [map_eq h, if_neg h1, if_neg h2]

/-- Settles O26: one clause per row of R180; the `- 1` modulo 256 (R181) is `+ 255` in numbers. -/
theorem mapIsTheMapper : Obligations.MapIsTheMapper := by
  unfold Obligations.MapIsTheMapper
  refine ⟨fun column => ?_, fun column => ?_, fun _ column h1 h2 =>
    map_row_other params_nRows h1 h2 column⟩
  · rw [map_row_one params_nRows]
    bv_omega
  · rw [map_row_two params_nRows, params_row2Base]
    bv_omega

/-- Settles O27: each line is R180's case for its row (`map_eq`), ORed with 0x80 (R185), in closed numbers. -/
theorem mapTableHolds : Obligations.MapTableHolds := by
  unfold Obligations.MapTableHolds
  simp [map_eq params_nRows, setDdramByte]

end Sys2Proof.Machine

/-! PROOFS. Conditions (60_exceptions.md): what `raise` does and leaves as it was (R205). -/

namespace Sys2Proof.Machine

/-- The response pulses of two traces in sequence: only a `Done` event pulses the response (R82). -/
theorem responses_append (es fs : List Event) :
    responses (es ++ fs) = responses es ++ responses fs := by
  induction es with
  | nil => rfl
  | cons e es ih =>
    cases e with
    | done c => simp only [List.cons_append, responses, ih]
    | drive | sample | wait | reset => simpa only [List.cons_append, responses] using ih

/-- R82, R205: `raise` adds one response pulse, with its code, after those there were. -/
theorem responses_raise (e : ErrCode) (s : State) :
    responses (raise e s).trace = responses s.trace ++ [e.code] := by
  rw [raise_trace, responses_append, responses, responses]

/-- R205: the whole state after `raise`; what the record update does not name, the six latches included, is as before. -/
theorem raise_eq (e : ErrCode) (s : State) :
    raise e s = { s with
      status := { busy := false, err := e }, upc := 0, trace := s.trace ++ [.done e] } := rfl

/-- Settles O33: the state by `raise_eq`, the response pulse by `responses_raise`. -/
theorem raiseOnlyReportsTheCondition : Obligations.RaiseOnlyReportsTheCondition := by
  unfold Obligations.RaiseOnlyReportsTheCondition
  exact fun e s => ⟨raise_eq e s, responses_raise e s⟩

end Sys2Proof.Machine

/-! PROOFS. Timing (70_reset_and_hazards.md): the pulses and least times of the operations (R243), and their micro-steps (R244). -/

namespace Sys2Proof.Machine

/-! Least times (R243). -/

theorem minElapsed_nil : minElapsed [] = 0 := rfl

theorem minElapsed_drive_cons (l : Line) (v : Level) (es : List Event) :
    minElapsed (.drive l v :: es) = minElapsed es := by
  simp [minElapsed, Event.minUs]

theorem minElapsed_wait_cons (k : WaitClass) (us : Nat) (es : List Event) :
    minElapsed (.wait k us :: es) = us + minElapsed es := by
  simp [minElapsed, Event.minUs]

/-- R109: the least time of a byte write whose RS reads back as `r`. -/
def byteTime (P : Params) (r : Level) : Nat := 2 * (P.tEnHoldUs + P.minUs (settleClass P r))

/-- R109, R137, R160: the least time of each operation, for a string of `n` bytes. -/
def leastTime (P : Params) (n : Nat) : Instr → Nat
  | .init => P.tPwrMinUs + P.tGap1MinUs + P.tGap2MinUs + P.tGap3MinUs + P.t4BitMinUs
      + 4 * P.tEnHoldUs + 5 * byteTime P .low
  | .clear | .setcur _ _ => byteTime P .low
  | .putc _ => byteTime P .high
  | .puts _ => byteTime P .high * n
  | .wrb _ m => byteTime P m.level
  | .putsNull | .reserved6 | .reserved7 => 0
  | .lcdClear | .lcdEntry | .lcdDispOff | .lcdDispOn | .lcdFuncset => 0
  | .lcdSetDdram _ | .lcdData _ | .lcdNibFs8 | .lcdNibFs4 => 0

/-- R243: the waits of a full trace add up to the operation's least time, under any parameters. -/
theorem minElapsed_fullEvents (P : Params) (bs : List Byte) (i : Instr) :
    minElapsed (fullEvents P bs i) = leastTime P bs.length i := by
  cases i with
  | init =>
    simp only [fullEvents, initEvents, handshakeEvents, leastTime, byteTime, minElapsed_append,
      minElapsed_rawEvents, minElapsed_byteEvents, minElapsed_drive_cons, minElapsed_wait_cons,
      minElapsed_nil, RsMode.level]
    omega
  | clear => exact minElapsed_byteEvents P _ _
  | wrb b m => exact minElapsed_byteEvents P b m
  | setcur row column =>
    rw [fullEvents, List.singleton_append, minElapsed_drive_cons, minElapsed_byteEvents]
    rfl
  | putc c =>
    rw [fullEvents, minElapsed_append, List.singleton_append, minElapsed_drive_cons,
      minElapsed_byteEvents]
    rfl
  | puts len =>
    rw [fullEvents, minElapsed_append, List.singleton_append, minElapsed_drive_cons,
      minElapsed_stringEvents]
    rfl
  | putsNull | reserved6 | reserved7 => rfl
  | lcdClear | lcdEntry | lcdDispOff | lcdDispOn | lcdFuncset => rfl
  | lcdSetDdram _ | lcdData _ | lcdNibFs8 | lcdNibFs4 => rfl

/-- R243: the spec's own parameters at a given gap before the 4-bit switch and a given `LONG_LEVEL`. -/
def timedParams (gap3 : Nat) (long : Level) : Params :=
  { params with tGap3MinUs := gap3, longLevel := long }

/-- R102: only a byte written with RS at `LONG_LEVEL` waits the long time after each nibble. -/
theorem settleMinUs_timedParams (gap3 : Nat) (long r : Level) :
    (timedParams gap3 long).minUs (settleClass (timedParams gap3 long) r) =
      if r = long then 4500 else 200 := by
  cases r <;> cases long <;> rfl

theorem byteTime_timedParams (gap3 : Nat) (long r : Level) :
    byteTime (timedParams gap3 long) r = if r = long then 9002 else 402 := by
  have hHold : (timedParams gap3 long).tEnHoldUs = 1 := rfl
  rw [byteTime, settleMinUs_timedParams, hHold]
  split <;> rfl

/-- R137: the waits of INIT's handshake, and five command bytes. -/
theorem leastTime_init_timedParams (gap3 : Nat) (long : Level) (n : Nat) :
    leastTime (timedParams gap3 long) n .init =
      23304 + gap3 + 5 * if .low = long then 9002 else 402 := by
  simp only [leastTime, byteTime_timedParams]
  simp only [timedParams, params, Config.defaults]
  omega

/-! Pulses (R106). -/

/-- R106, R243: the EN pulses of each operation, for a string of `n` bytes. -/
def pulseCount (n : Nat) : Instr → Nat
  | .init => 14
  | .clear | .setcur _ _ | .putc _ | .wrb _ _ => 2
  | .puts _ => 2 * n
  | .putsNull | .reserved6 | .reserved7 => 0
  | .lcdClear | .lcdEntry | .lcdDispOff | .lcdDispOn | .lcdFuncset => 0
  | .lcdSetDdram _ | .lcdData _ | .lcdNibFs8 | .lcdNibFs4 => 0

theorem pulses_rs_cons (v : Level) (es : List Event) :
    pulses (.drive .rs v :: es) = pulses es :=
  List.count_cons_of_ne (by simp)

theorem pulses_wait_cons (k : WaitClass) (us : Nat) (es : List Event) :
    pulses (.wait k us :: es) = pulses es :=
  List.count_cons_of_ne (by simp)

theorem pulses_nil : pulses [] = 0 := rfl

/-- R106: one pulse for each nibble of the full trace, under any parameters. -/
theorem pulses_fullEvents (P : Params) (bs : List Byte) (i : Instr) :
    pulses (fullEvents P bs i) = pulseCount bs.length i := by
  cases i with
  | init =>
    simp only [fullEvents, initEvents, handshakeEvents, pulseCount, pulses_append,
      pulses_rawEvents, pulses_byteEvents, pulses_rs_cons, pulses_wait_cons, pulses_nil]
  | clear => exact pulses_byteEvents P _ _
  | wrb b m => exact pulses_byteEvents P b m
  | setcur row column =>
    rw [fullEvents, List.singleton_append, pulses_rs_cons, pulses_byteEvents]
    rfl
  | putc c =>
    rw [fullEvents, pulses_append, List.singleton_append, pulses_rs_cons, pulses_byteEvents]
    rfl
  | puts len =>
    rw [fullEvents, pulses_append, List.singleton_append, pulses_rs_cons, pulses_stringEvents]
    rfl
  | putsNull | reserved6 | reserved7 => rfl
  | lcdClear | lcdEntry | lcdDispOff | lcdDispOn | lcdFuncset => rfl
  | lcdSetDdram _ | lcdData _ | lcdNibFs8 | lcdNibFs4 => rfl

/-- A full trace without a pulse has no wait either. -/
theorem leastTime_of_pulseCount_zero (P : Params) {n : Nat} {i : Instr} (h : pulseCount n i = 0) :
    leastTime P n i = 0 := by
  cases i with
  | init | clear | setcur _ _ | putc _ | wrb _ _ => cases h
  | puts len =>
    obtain rfl : n = 0 := (Nat.mul_eq_zero.mp h).resolve_left (by decide)
    rfl
  | putsNull | reserved6 | reserved7 => rfl
  | lcdClear | lcdEntry | lcdDispOff | lcdDispOn | lcdFuncset => rfl
  | lcdSetDdram _ | lcdData _ | lcdNibFs8 | lcdNibFs4 => rfl

/-- R243: the operations that never reach the bus, and the empty string. -/
theorem pulseCount_zeroRow {bs : List Byte} {i : Instr}
    (h : i = .puts 0 ∧ bs = [] ∨ i = .putsNull ∨ i = .reserved6 ∨ i = .reserved7) :
    pulseCount bs.length i = 0 := by
  obtain ⟨rfl, rfl⟩ | rfl | rfl | rfl := h <;> rfl

/-- Settles O47: each row is read off `leastTime` and `pulseCount`, which hold for any parameters, at the two `timedParams` of the table. -/
theorem leastTimesAreAsTabled : Obligations.LeastTimesAreAsTabled := by
  unfold Obligations.LeastTimesAreAsTabled
  intro g bs row column b hi lo
  have hiLow : byteTime hi .low = 402 := byteTime_timedParams g .high .low
  have hiHigh : byteTime hi .high = 9002 := byteTime_timedParams g .high .high
  have loLow : byteTime lo .low = 9002 := byteTime_timedParams g .low .low
  have loHigh : byteTime lo .high = 402 := byteTime_timedParams g .low .high
  have hiInit : leastTime hi bs.length .init = 25314 + g :=
    (leastTime_init_timedParams g .high _).trans (by rw [if_neg (by decide)]; omega)
  have loInit : leastTime lo bs.length .init = 68314 + g :=
    (leastTime_init_timedParams g .low _).trans (by rw [if_pos rfl]; omega)
  simp only [minElapsed_fullEvents, pulses_fullEvents]
  exact ⟨fun n => ⟨minElapsed_rawEvents hi n, minElapsed_rawEvents lo n⟩,
    hiLow, loLow, hiHigh, loHigh,
    hiLow, loLow, hiLow, loLow, hiHigh, loHigh,
    congrArg (· * bs.length) hiHigh, congrArg (· * bs.length) loHigh, hiInit, loInit,
    fun i h => have hz := pulseCount_zeroRow h
      ⟨leastTime_of_pulseCount_zero hi hz, leastTime_of_pulseCount_zero lo hz, hz⟩,
    pulses_rawEvents hi, fun _ => rfl, rfl, rfl, rfl, rfl, rfl⟩

/-! Micro-steps (R244). -/

theorem length_driveNibble (src : NibSrc) : (driveNibble src).length = 4 := rfl

theorem length_pulseEn : pulseEn.length = 3 := rfl

theorem length_expand_raw (src : NibSrc) : (Stmt.raw src).expand.length = 7 := by
  rw [Stmt.expand, List.length_append, length_driveNibble, length_pulseEn]

/-- R244: two nibbles of 4 + 3 + 1. -/
theorem length_sendByte (last : Micro) : (sendByte last).length = 2 * (4 + 3 + 1) := by
  simp only [sendByte, List.length_append, length_driveNibble, length_pulseEn, List.length_cons,
    List.length_nil]

theorem length_expand_write (src : ByteSrc) (m : RsMode) :
    (Stmt.write src m).expand.length = 17 := by
  rw [Stmt.expand, List.length_cons, length_sendByte]

/-- Settles O49: the procedures by their own lengths, the operations by `length_program`, whose count `microCount` is R244's list. -/
theorem microStepCountsAreAsListed : Obligations.MicroStepCountsAreAsListed := by
  unfold Obligations.MicroStepCountsAreAsListed
  exact ⟨fun n => ⟨length_driveNibble n, length_expand_raw n⟩, length_pulseEn, length_expand_write,
    fun b m => length_program (i := .wrb b m) rfl,
    length_program (i := .clear) rfl,
    fun row column => length_program (i := .setcur row column) rfl,
    fun c => length_program (i := .putc c) rfl,
    fun n => length_program (i := .puts n) rfl,
    length_program (i := .putsNull) rfl,
    length_program (i := .reserved6) rfl,
    length_program (i := .reserved7) rfl,
    length_program (i := .init) rfl⟩

end Sys2Proof.Machine

/-! PROOFS. Encoding (30_encoding.md): the round trip (R70 to R79), the rows of the LCD side (R77 to R79), the words of the assembler (R83) and the limit on a string's length (R75). -/

namespace Sys2Proof

/-- Settles O1: the round trip of each constructor. -/
theorem decodeOfEncodeIsTheInstruction : Obligations.DecodeOfEncodeIsTheInstruction := by
  unfold Obligations.DecodeOfEncodeIsTheInstruction
  intro i
  cases i with
  | init => exact Laws.RoundTrip.init
  | clear => exact Laws.RoundTrip.clear
  | setcur row column => exact Laws.RoundTrip.setcur row column
  | putc c => exact Laws.RoundTrip.putc c
  | puts len => exact Laws.RoundTrip.puts len
  | putsNull => exact Laws.RoundTrip.putsNull
  | wrb b m => exact Laws.RoundTrip.wrb b m
  | reserved6 => exact Laws.RoundTrip.reserved6
  | reserved7 => exact Laws.RoundTrip.reserved7
  | lcdClear => exact Laws.RoundTrip.lcdClear
  | lcdEntry => exact Laws.RoundTrip.lcdEntry
  | lcdDispOff => exact Laws.RoundTrip.lcdDispOff
  | lcdDispOn => exact Laws.RoundTrip.lcdDispOn
  | lcdFuncset => exact Laws.RoundTrip.lcdFuncset
  | lcdSetDdram a => exact Laws.RoundTrip.lcdSetDdram a
  | lcdData d => exact Laws.RoundTrip.lcdData d
  | lcdNibFs8 => exact Laws.RoundTrip.lcdNibFs8
  | lcdNibFs4 => exact Laws.RoundTrip.lcdNibFs4

/-! The LCD side. -/

/-- R77: a set-address byte is 1 above the seven address bits. -/
theorem setAddressByte_iff (b : Byte) (a : BitVec 7) :
    b = (1 : BitVec 1) ++ a ↔ b.toNat = 0x80 + a.toNat := by
  have h : ((1 : BitVec 1) ++ a : Byte).toNat = 0x80 + a.toNat := by revert a; decide
  rw [← h]
  exact BitVec.toNat_inj.symm

/-- R77: a byte with bit 7 set is the set-address byte of its low seven bits. -/
theorem eq_setAddressByte {b : Byte} (h : b.getLsbD 7 = true) :
    b = (1 : BitVec 1) ++ (b.extractLsb' 0 7 : BitVec 7) := by
  revert b
  decide

/-- R77: the command bytes that are rows, and which. -/
theorem decodeCommandByte_iff (b : Byte) (i : Instr) :
    decodeCommandByte b = .ok i ↔
      (b = cmdClear ∧ i = .lcdClear) ∨ (b = cmdEntry ∧ i = .lcdEntry) ∨
      (b = cmdDispOff ∧ i = .lcdDispOff) ∨ (b = cmdDispOn ∧ i = .lcdDispOn) ∨
      (b = cmdFuncset ∧ i = .lcdFuncset) ∨
      ∃ a : BitVec 7, b.toNat = 0x80 + a.toNat ∧ i = .lcdSetDdram a := by
  constructor
  · intro h
    unfold decodeCommandByte at h
    split at h
    · exact .inl ⟨‹_›, (Except.ok.inj h).symm⟩
    split at h
    · exact .inr (.inl ⟨‹_›, (Except.ok.inj h).symm⟩)
    split at h
    · exact .inr (.inr (.inl ⟨‹_›, (Except.ok.inj h).symm⟩))
    split at h
    · exact .inr (.inr (.inr (.inl ⟨‹_›, (Except.ok.inj h).symm⟩)))
    split at h
    · exact .inr (.inr (.inr (.inr (.inl ⟨‹_›, (Except.ok.inj h).symm⟩))))
    split at h
    · have hb := (setAddressByte_iff b _).mp (eq_setAddressByte ‹_›)
      exact .inr (.inr (.inr (.inr (.inr ⟨_, hb, (Except.ok.inj h).symm⟩))))
    · cases h
  · rintro (⟨rfl, rfl⟩ | ⟨rfl, rfl⟩ | ⟨rfl, rfl⟩ | ⟨rfl, rfl⟩ | ⟨rfl, rfl⟩ | ⟨a, ha, rfl⟩)
    · exact Laws.RoundTrip.lcdClear rfl
    · exact Laws.RoundTrip.lcdEntry rfl
    · exact Laws.RoundTrip.lcdDispOff rfl
    · exact Laws.RoundTrip.lcdDispOn rfl
    · exact Laws.RoundTrip.lcdFuncset rfl
    · rw [(setAddressByte_iff b a).mpr ha]
      exact Laws.RoundTrip.lcdSetDdram a rfl

/-- R79: the two raw nibbles that are rows. -/
theorem decodeNibble_iff (n : Nibble) (i : Instr) :
    decodeNibble n = .ok i ↔ (n = nibFs8 ∧ i = .lcdNibFs8) ∨ (n = nibFs4 ∧ i = .lcdNibFs4) := by
  constructor
  · intro h
    unfold decodeNibble at h
    split at h
    · exact .inl ⟨‹_›, (Except.ok.inj h).symm⟩
    split at h
    · exact .inr ⟨‹_›, (Except.ok.inj h).symm⟩
    · cases h
  · rintro (⟨rfl, rfl⟩ | ⟨rfl, rfl⟩)
    · exact Laws.RoundTrip.lcdNibFs8 rfl
    · exact Laws.RoundTrip.lcdNibFs4 rfl

/-- Settles O4: the command bytes by `decodeCommandByte_iff`, the nibbles by `decodeNibble_iff`; every data byte is its own row. -/
theorem lcdSideDecodesExactlyItsRows : Obligations.LcdSideDecodesExactlyItsRows := by
  unfold Obligations.LcdSideDecodesExactlyItsRows
  refine ⟨decodeCommandByte_iff, fun d i => ?_, decodeNibble_iff⟩
  rw [decode, Except.ok.injEq, eq_comm]

/-! Command words. -/

/-- Settles O3: each word by its fields. -/
theorem listedWordsDecodeAsListed : Obligations.ListedWordsDecodeAsListed := by
  unfold Obligations.ListedWordsDecodeAsListed
  decide

/-- R70: the fields of a word as summands of an OR. -/
theorem packWord_eq_or (op : BitVec 3) (a b : Byte) :
    packWord op a b =
      (op.zeroExtend 19 <<< 16) ||| (a.zeroExtend 19 <<< 8) ||| b.zeroExtend 19 := by
  refine BitVec.eq_of_getLsbD_eq fun k hk => ?_
  simp only [packWord_getLsbD, BitVec.getLsbD_or, BitVec.getLsbD_shiftLeft, BitVec.getLsbD_setWidth]
  rcases Nat.lt_or_ge k 8 with h | h
  · simp [h, hk, show k < 16 by omega]
  rcases Nat.lt_or_ge k 16 with h' | h'
  · have hb : b.getLsbD k = false := BitVec.getLsbD_of_ge b k h
    simp [hk, h', hb, show ¬ k < 8 by omega, show k - 8 < 8 by omega, show k - 8 < 19 by omega]
  · have hb : b.getLsbD k = false := BitVec.getLsbD_of_ge b k h
    have ha : a.getLsbD (k - 8) = false := BitVec.getLsbD_of_ge a _ (by omega)
    simp [hk, hb, ha, show ¬ k < 8 by omega, show ¬ k < 16 by omega, show ¬ k - 8 < 8 by omega,
      show k - 16 < 19 by omega, show k - 8 - 8 = k - 16 by omega]

/-- Settles O5: the words as R70 packs them (`packWord_eq_or`). -/
theorem assemblerLinesHaveTheirWords : Obligations.AssemblerLinesHaveTheirWords := by
  unfold Obligations.AssemblerLinesHaveTheirWords
  refine ⟨rfl, rfl, fun row column => ?_, fun c => ?_, fun text h => ⟨?_, rfl⟩, rfl, fun b => ?_,
    fun b => ?_⟩
  · exact congrArg BusWord.host (packWord_eq_or 2 row column)
  · exact congrArg BusWord.host (packWord_eq_or 3 0 c)
  · have hlen : (BitVec.ofNat 8 text.length).zeroExtend 19 = BitVec.ofNat 19 text.length := by
      apply BitVec.eq_of_toNat_eq
      simp only [BitVec.toNat_setWidth, BitVec.toNat_ofNat]
      omega
    rw [← hlen]
    exact congrArg BusWord.host (packWord_eq_or 4 1 _)
  · exact congrArg BusWord.host (packWord_eq_or 5 0 b)
  · exact congrArg BusWord.host (packWord_eq_or 5 1 b)

/-- R75: the eight bits of LEN keep a length modulo 256. -/
theorem decode_encode_puts (len : Nat) :
    decode (encode (.puts len)) = .ok (.puts (len % 256)) := by
  simp [encode, decode, decodeWord_packWord]

/-- Settles O6: a length is what its eight bits keep of it exactly if it is at most 255. -/
theorem onlyShortStringsHaveAWord : Obligations.OnlyShortStringsHaveAWord := by
  unfold Obligations.OnlyShortStringsHaveAWord
  intro len
  rw [decode_encode_puts, Except.ok.injEq, Instr.puts.injEq]
  omega

end Sys2Proof

/-! PROOFS. The step (42_dispatcher.md section 1) by cases, and the engine's invariant (10_state.md section 8): a step goes on from every state of it and keeps it. -/

namespace Sys2Proof.Machine

/-! A step, one equation for each of its cases. -/

theorem stepWith_reset {P : Params} {s : State} (hr : s.rstAfter = some 0) :
    stepWith P s = .next (applyReset s) := by
  simp [stepWith, stepBy, hr]

theorem stepWith_emission {P : Params} {s : State} {i : Instr} (hr : s.rstAfter ≠ some 0)
    (hb : s.status.busy = true) (he : s.nextEmission P = some i) :
    stepWith P s = closeOutcome (execWith P i s) := by
  simp [stepWith, stepBy, busyStep, hr, hb, he]

theorem stepWith_accept {P : Params} {s : State} {w : CmdWord} {ws : List CmdWord}
    (hr : s.rstAfter ≠ some 0) (hb : s.status.busy = false) (ho : s.offers = w :: ws) :
    stepWith P s = execWith P (decodeWord w) (accept w ws s) := by
  simp [stepWith, stepBy, idleStep, hr, hb, ho]

theorem stepWith_wait {P : Params} {s : State} (hr : s.rstAfter ≠ some 0)
    (hb : s.status.busy = false) (ho : s.offers = []) : stepWith P s = .next (waiting s) := by
  simp [stepWith, stepBy, idleStep, hr, hb, ho]

theorem microStep_going {P : Params} {s t : State} {m : Micro} (h : s.currentMicro = some m)
    (e : perform P m s = .going t) : microStep P s = .next (closeIfOver t) := by
  simp only [microStep, h, e]

theorem microStep_halted {P : Params} {s t : State} {m : Micro} (h : s.currentMicro = some m)
    (e : perform P m s = .halted t) : microStep P s = .next t := by
  simp only [microStep, h, e]

theorem nextEmission_of_position {P : Params} {s : State} {p : Stmt} {x : BusWord} {i : Instr}
    (hp : s.position = some (p, 0)) (hx : p.busWord P s = some x) (hd : decode x = .ok i) :
    s.nextEmission P = some i := by
  simp [State.nextEmission, hp, hx, hd, Except.toOption]

/-- All a step can do, under any parameters: the reset that is due (R230), an emission of the table or one micro-step of a busy engine (log 1, log 12), the operation of the offered word or a wait of an idle one (R150). -/
theorem stepWith_cases (P : Params) (s : State) :
    (s.rstAfter = some 0 ∧ stepWith P s = .next (applyReset s)) ∨
      (s.rstAfter ≠ some 0 ∧ s.status.busy = true ∧ ∃ p x i, s.position = some (p, 0) ∧
        p.busWord P s = some x ∧ decode x = .ok i ∧
        stepWith P s = closeOutcome (execWith P i s)) ∨
      (s.rstAfter ≠ some 0 ∧ s.status.busy = true ∧ s.nextEmission P = none ∧
        stepWith P s = microStep P s) ∨
      (s.status.busy = false ∧ ∃ w ws, s.offers = w :: ws ∧
        stepWith P s = execWith P (decodeWord w) (accept w ws s)) ∨
      (s.status.busy = false ∧ s.offers = [] ∧ stepWith P s = .next (waiting s)) := by
  by_cases hr : s.rstAfter = some 0
  · exact .inl ⟨hr, stepWith_reset hr⟩
  cases hb : s.status.busy with
  | true =>
    cases he : s.nextEmission P with
    | some i =>
      obtain ⟨p, x, hp, hx, hd⟩ := nextEmission_some he
      exact .inr (.inl ⟨hr, rfl, p, x, i, hp, hx, hd, stepWith_emission hr hb he⟩)
    | none => exact .inr (.inr (.inl ⟨hr, rfl, rfl, stepWith_microStep hr hb he⟩))
  | false =>
    cases ho : s.offers with
    | nil => exact .inr (.inr (.inr (.inr ⟨rfl, rfl, stepWith_wait hr hb ho⟩)))
    | cons w ws => exact .inr (.inr (.inr (.inl ⟨rfl, w, ws, rfl, stepWith_accept hr hb ho⟩)))

/-! What the statements say of a step. -/

/-- Settles O52: `exec_eq` and `step_eq`, then one equation for each case of a step. -/
theorem stepTakesTheParametersAsArguments : Obligations.StepTakesTheParametersAsArguments := by
  unfold Obligations.StepTakesTheParametersAsArguments
  refine ⟨exec_eq, step_eq, fun P s w ws i hr hb ho hd => ?_, fun P s p x i hr hb hp hx hd =>
    stepWith_emission hr hb (nextEmission_of_position hp hx hd),
    fun P s => stepWith_microStep, fun P s => stepWith_wait⟩
  obtain rfl : decodeWord w = i := Except.ok.inj hd
  exact stepWith_accept hr hb ho

/-- Settles O7: the clauses of O52 for the machine's own parameters. -/
theorem stepRunsTheDecodedInstruction : Obligations.StepRunsTheDecodedInstruction := by
  unfold Obligations.StepRunsTheDecodedInstruction
  obtain ⟨hexec, hstep, haccept, hemission, hmicro, hwait⟩ := stepTakesTheParametersAsArguments
  simp only [hexec, hstep]
  exact ⟨haccept params, hemission params, hmicro params, hwait params⟩

/-- Settles O9: the fields that acceptance and the begin of an operation write. -/
theorem acceptanceLatchesTheWord : Obligations.AcceptanceLatchesTheWord := by
  unfold Obligations.AcceptanceLatchesTheWord
  exact fun _ _ _ => ⟨rfl, rfl, rfl, rfl, rfl, rfl, rfl⟩

/-- Settles O11: a step with a reset due is `applyReset`, in every state. -/
theorem resetAbandonsWhateverRuns : Obligations.ResetAbandonsWhateverRuns := by
  unfold Obligations.ResetAbandonsWhateverRuns
  intro s hr
  exact ⟨applyReset s, (step_eq s).trans (stepWith_reset hr), by simp; decide, by simp; decide,
    rfl, rfl, rfl, rfl, rfl⟩

/-- R25: STATUS in numbers. -/
theorem status_word_toNat (s : Status) :
    s.word.toNat = 2 * s.err.code.toNat + s.busy.toNat := by
  obtain ⟨busy, err⟩ := s
  cases busy <;> cases err <;> rfl

/-- Settles O32: STATUS as a begin and a `Done` write it, in numbers (`status_word_toNat`). -/
theorem statusWordShowsBusyAndErr : Obligations.StatusWordShowsBusyAndErr := by
  unfold Obligations.StatusWordShowsBusyAndErr
  exact fun e s => ⟨status_word_toNat (begin s).status, status_word_toNat (finish e s).status⟩

/-- A string byte is no row of the table: where it is next, no emission is (log 12). -/
theorem nextEmission_of_startStringByte {P : Params} {s : State}
    (h : s.currentMicro = some .startStringByte) : s.nextEmission P = none := by
  cases he : s.nextEmission P with
  | none => rfl
  | some i =>
    obtain ⟨p, x, hp, hx, -⟩ := nextEmission_some he
    rw [State.currentMicro, hp] at h
    cases p with
    | raw src | write src m => cases h
    | drive _ _ | wait _ | writeString | openCursor _ _ | openString _ => cases hx

/-- Settles O20: such a step is the micro-step that starts the string byte, and that halts with nothing done (R62). -/
theorem waitingForAByteChangesNothing : Obligations.WaitingForAByteChangesNothing := by
  unfold Obligations.WaitingForAByteChangesNothing
  intro s hr hb hm hp
  have hstall : perform params .startStringByte s = .halted (waiting s) := by
    rw [perform_of_clear hr]
    simp [act, hp]
  rw [step_eq, stepWith_microStep hr hb (nextEmission_of_startStringByte hm),
    microStep_halted hm hstall]
  rfl

/-- Settles O38: the reset state is idle, with UPC 0 and EN Low. -/
theorem resetMeetsTheEngineInvariant : Obligations.ResetMeetsTheEngineInvariant :=
  EngineInv.applyReset State.reset

/-! Progress (R159). -/

theorem runSetcur_safe (P : Params) (row column : Byte) (s : State) :
    Safe (runSetcur P row column s) := by
  unfold runSetcur
  split
  · exact ⟨_, rfl⟩
  · exact operate_safe P _ s

/-- No instruction faults and none is refused, under any parameters. -/
theorem execWith_safe (P : Params) (i : Instr) (s : State) : Safe (execWith P i s) := by
  cases i with
  | init | clear | putc _ | puts _ | wrb _ _ => exact operate_safe P _ s
  | setcur row column => exact runSetcur_safe P row column s
  | putsNull | reserved6 | reserved7 => exact ⟨_, rfl⟩
  | lcdClear | lcdEntry | lcdDispOff | lcdDispOn | lcdFuncset => exact ⟨_, rfl⟩
  | lcdSetDdram _ | lcdData _ | lcdNibFs8 | lcdNibFs4 => exact ⟨_, rfl⟩

theorem Safe.closeOutcome {r : Host.Outcome State Fault Refusal} (h : Safe r) :
    Safe (closeOutcome r) := by
  obtain ⟨t, rfl⟩ := h
  exact ⟨closeIfOver t, rfl⟩

/-- A micro-step goes on where UPC names one. -/
theorem microStep_safe (P : Params) {s : State} {m : Micro} (h : s.currentMicro = some m) :
    Safe (microStep P s) := by
  cases e : perform P m s with
  | going t => exact ⟨_, microStep_going h e⟩
  | halted t => exact ⟨_, microStep_halted h e⟩

theorem EngineInv.stepWith_safe {s : State} (h : EngineInv s) (P : Params) :
    Safe (stepWith P s) := by
  rcases stepWith_cases P s with ⟨-, e⟩ | ⟨-, -, p, x, i, -, -, -, e⟩ | ⟨-, hb, -, e⟩ |
    ⟨-, w, ws, -, e⟩ | ⟨-, -, e⟩
  · exact ⟨_, e⟩
  · exact e ▸ (execWith_safe P i s).closeOutcome
  · obtain ⟨⟨m, hm, -⟩, -⟩ := h.2 hb
    exact e ▸ microStep_safe P hm
  · exact e ▸ execWith_safe P _ _
  · exact ⟨_, e⟩

/-- Settles O39: a busy state of the invariant has a micro-step that is next, and an instruction always goes on. -/
theorem engineNeverStops : Obligations.EngineNeverStops := by
  unfold Obligations.EngineNeverStops
  exact ⟨fun s h => step_eq s ▸ h.stepWith_safe params, fun P _ h => h.stepWith_safe P⟩

/-! Preservation (R24, R32, R105, R154), with ideal collaborators. -/

/-- The outcome `r` is a next state, and one of the invariant. -/
def GoesOn (r : Host.Outcome State Fault Refusal) : Prop := ∃ t, r = .next t ∧ EngineInv t

/-- A host operation that an idle engine accepts ends, waits or is reset in a state of the invariant. -/
theorem operate_goesOn {P : Params} (hP : IdealCollaborators P) {s : State}
    (he : s.out.en = .low) : GoesOn (operate P (program s.running) s) := by
  have hahead : Ahead (micros (program s.running) ++ []) (begin s) := by
    rw [List.append_nil]
    exact ahead_begin he
  rcases hahead.run hP with ⟨t, hrun, ht⟩ | ⟨t, hrun, ht⟩
  · exact ⟨finish .ok t, operate_of_going hrun, EngineInv.finish _ ht.chain⟩
  · exact ⟨t, by rw [operate, hrun], ht⟩

/-- An emission of a busy engine, and the end of the operation if it was its last micro-step. -/
theorem Ahead.transmit_goesOn {P : Params} (hP : IdealCollaborators P) {ns : List Micro} {p : Stmt}
    {s : State} (h : Ahead (p.expand ++ ns) s) : GoesOn (closeOutcome (transmit P p s)) := by
  rcases h.run hP with ⟨t, hrun, ht⟩ | ⟨t, hrun, ht⟩
  · exact ⟨closeIfOver t, by rw [transmit, hrun]; rfl, ht.inv_closeIfOver⟩
  · exact ⟨closeIfOver t, by rw [transmit, hrun]; rfl, ht.closeIfOver_eq.symm ▸ ht⟩

/-- One micro-step of a busy engine. -/
theorem Ahead.microStep_goesOn {P : Params} (hP : IdealCollaborators P) {m : Micro}
    {ms : List Micro} {s : State} (h : Ahead (m :: ms) s) : GoesOn (microStep P s) := by
  rcases perform_ideal_cases hP m s with ⟨-, e⟩ | ⟨-, -, -, e⟩ | ⟨-, e⟩
  · exact ⟨_, microStep_halted h.currentMicro e, EngineInv.applyReset s⟩
  · exact ⟨_, microStep_halted h.currentMicro e, h.waiting.inv⟩
  · exact ⟨_, microStep_going h.currentMicro e, h.next.inv_closeIfOver⟩

/-- Every step from a state of the invariant leads to one. -/
theorem EngineInv.stepWith_goesOn {P : Params} (hP : IdealCollaborators P) {s : State}
    (h : EngineInv s) : GoesOn (stepWith P s) := by
  rcases stepWith_cases P s with ⟨-, e⟩ | ⟨-, hb, p, x, i, hp, hx, hd, e⟩ | ⟨-, hb, -, e⟩ |
    ⟨hb, w, ws, -, e⟩ | ⟨-, -, e⟩
  · exact ⟨_, e, EngineInv.applyReset s⟩
  · obtain ⟨m, ms, hahead, -⟩ := h.ahead hb
    obtain ⟨ns, hns⟩ := hahead.of_position (Option.isSome_of_mem hx) hp
    rw [e, execWith_emission hx hd]
    exact (hns ▸ hahead).transmit_goesOn hP
  · obtain ⟨m, ms, hahead, -⟩ := h.ahead hb
    exact e ▸ hahead.microStep_goesOn hP
  · have hen : (accept w ws s).out.en = .low := (h.1 hb).2
    rw [e]
    rcases execWith_decodeWord P w (accept w ws s) with e' | e'
    · rw [e']
      exact operate_goesOn hP (s := accept w ws s) hen
    · exact ⟨_, e', EngineInv.finish _ hen⟩
  · exact ⟨waiting s, e, h⟩

theorem GoesOn.inv {r : Host.Outcome State Fault Refusal} {t : State} (h : GoesOn r)
    (e : r = .next t) : EngineInv t := by
  obtain ⟨u, hu, hinv⟩ := h
  obtain rfl : u = t := Host.Outcome.next.inj (hu.symm.trans e)
  exact hinv

/-- Settles O37: `EngineInv.stepWith_goesOn`, of which `step` is the case of the machine's parameters. -/
theorem stepKeepsTheEngineInvariant : Obligations.StepKeepsTheEngineInvariant := by
  unfold Obligations.StepKeepsTheEngineInvariant
  exact ⟨fun s _ h e => (h.stepWith_goesOn params_ideal).inv (step_eq s ▸ e),
    fun _ _ _ hP h e => (h.stepWith_goesOn hP).inv e⟩

end Sys2Proof.Machine

/-! PROOFS. Inputs that no micro-step sees, and what follows: a busy engine and the offers (R150), a reset inside an operation (R232). -/

namespace Sys2Proof.Machine

/-- An update of the state that neither the writes nor the events of any micro-step depend on, and that none undoes. -/
structure Unseen (P : Params) (f : State → State) : Prop where
  effect : ∀ (m : Micro) (s : State), effect P m (f s) = f (effect P m s)
  microEvents : ∀ (m : Micro) (s : State), microEvents P m (f s) = microEvents P m s

theorem Unseen.effects {P : Params} {f : State → State} (h : Unseen P f) (ms : List Micro)
    (s : State) : effects P ms (f s) = f (effects P ms s) := by
  induction ms generalizing s with
  | nil => rfl
  | cons m ms ih => rw [effects_cons, h.effect, ih, effects_cons]

theorem Unseen.eventsOf {P : Params} {f : State → State} (h : Unseen P f) (ms : List Micro)
    (s : State) : eventsOf P ms (f s) = eventsOf P ms s := by
  induction ms generalizing s with
  | nil => rfl
  | cons m ms ih => rw [eventsOf_cons, h.microEvents, h.effect, ih, eventsOf_cons]

/-! A busy engine and the offers. -/

/-- The state with other words offered by the host (R82). -/
def State.offering (s : State) (ws : List CmdWord) : State := { s with offers := ws }

theorem unseen_offering (P : Params) (ws : List CmdWord) : Unseen P (·.offering ws) where
  effect m s := by
    cases m with
    | startByte src _ => cases src <;> rfl
    | dataBit _ src _ => cases src <;> rfl
    | _ => rfl
  microEvents m s := by
    cases m with
    | dataBit _ src _ => cases src <;> rfl
    | _ => rfl

/-- A run with its state updated, wherever it leaves off. -/
def Run.onState (f : State → State) : Run State → Run State
  | .going s => .going (f s)
  | .halted s => .halted (f s)

@[simp] theorem Run.state_onState (f : State → State) (r : Run State) :
    (r.onState f).state = f r.state := by cases r <;> rfl

theorem perform_offering {P : Params} (hP : IdealCollaborators P) (m : Micro) (s : State)
    (ws : List CmdWord) :
    perform P m (s.offering ws) = (perform P m s).onState (·.offering ws) := by
  rcases perform_ideal_cases hP m s with ⟨hr, e⟩ | ⟨hr, rfl, hp, e⟩ | ⟨hr, e⟩
  · rw [e, perform, if_pos (show (s.offering ws).rstAfter = some 0 from hr)]
    rfl
  · have hr' : (s.offering ws).rstAfter ≠ some 0 := hr
    have hp' : (s.offering ws).payload = [] := hp
    rw [e, perform_of_clear hr']
    simp [act, hp', Run.onState]
    rfl
  · have hb : m = .startStringByte → (s.offering ws).payload ≠ [] := by
      rintro rfl hp
      rw [perform_of_clear hr] at e
      simp [act, show s.payload = [] from hp] at e
    rw [e, perform_ideal hP (s := s.offering ws) hr hb, (unseen_offering P ws).effect,
      (unseen_offering P ws).microEvents]
    rfl

theorem runMicros_offering {P : Params} (hP : IdealCollaborators P) (ms : List Micro) (s : State)
    (ws : List CmdWord) :
    runMicros P ms (s.offering ws) = (runMicros P ms s).onState (·.offering ws) := by
  induction ms generalizing s with
  | nil => rfl
  | cons m ms ih =>
    rw [runMicros, runMicros, perform_offering hP]
    cases perform P m s with
    | going t => exact ih t
    | halted t => rfl

theorem closeIfOver_offering (s : State) (ws : List CmdWord) :
    closeIfOver (s.offering ws) = (closeIfOver s).offering ws := by
  rw [closeIfOver, closeIfOver, apply_ite (State.offering · ws)]
  rfl

theorem microStep_offering {P : Params} (hP : IdealCollaborators P) {s t : State}
    (h : microStep P s = .next t) (ws : List CmdWord) :
    microStep P (s.offering ws) = .next (t.offering ws) := by
  cases hm : s.currentMicro with
  | none => simp [microStep, hm] at h
  | some m =>
    have hm' : (s.offering ws).currentMicro = some m := hm
    have hrun' := perform_offering hP m s ws
    cases hrun : perform P m s with
    | going u =>
      rw [hrun] at hrun'
      obtain rfl := Host.Outcome.next.inj ((microStep_going hm hrun).symm.trans h)
      exact (microStep_going hm' hrun').trans (congrArg _ (closeIfOver_offering u ws))
    | halted u =>
      rw [hrun] at hrun'
      obtain rfl := Host.Outcome.next.inj ((microStep_halted hm hrun).symm.trans h)
      exact microStep_halted hm' hrun'

theorem Stmt.busWord_offering (P : Params) (p : Stmt) (s : State) (ws : List CmdWord) :
    p.busWord P (s.offering ws) = p.busWord P s := by
  cases p with
  | raw src => cases src <;> rfl
  | write src m => cases src <;> rfl
  | _ => rfl

/-- A busy engine makes the same step whatever is offered, and leaves the offers there. -/
theorem stepWith_offering {P : Params} (hP : IdealCollaborators P) {s t : State}
    (hb : s.status.busy = true) (h : stepWith P s = .next t) (ws : List CmdWord) :
    stepWith P (s.offering ws) = .next (t.offering ws) := by
  rcases stepWith_cases P s with ⟨hr, e⟩ | ⟨hr, -, p, x, i, hp, hx, hd, e⟩ | ⟨hr, -, he, e⟩ |
    ⟨hidle, -⟩ | ⟨hidle, -⟩
  · obtain rfl := Host.Outcome.next.inj (e.symm.trans h)
    exact stepWith_reset (s := s.offering ws) hr
  · have hx' : p.busWord P (s.offering ws) = some x := (p.busWord_offering P s ws).trans hx
    obtain rfl := Host.Outcome.next.inj ((execWith_emission hx hd ▸ e).symm.trans h)
    rw [stepWith_emission (s := s.offering ws) hr hb (nextEmission_of_position hp hx' hd),
      execWith_emission hx' hd, transmit, runMicros_offering hP, Run.state_onState]
    exact congrArg Host.Outcome.next (closeIfOver_offering _ ws)
  · have he' : (s.offering ws).nextEmission P = none := by
      rw [← he]
      simp only [State.nextEmission, Stmt.busWord_offering]
      rfl
    rw [stepWith_microStep (s := s.offering ws) hr hb he']
    exact microStep_offering hP (e.symm.trans h) ws
  · exact absurd hb (by simp [hidle])
  · exact absurd hb (by simp [hidle])

/-- Settles O8: `stepWith_offering`; that the offers stay is its case of the offers there are. -/
theorem busyEngineAcceptsNothing : Obligations.BusyEngineAcceptsNothing := by
  unfold Obligations.BusyEngineAcceptsNothing
  intro s t hb h
  rw [step_eq] at h
  have hsame := stepWith_offering params_ideal hb h
  have ht : t = t.offering s.offers := Host.Outcome.next.inj (h.symm.trans (hsame s.offers))
  have ho : t.offers = (t.offering s.offers).offers := congrArg State.offers ht
  exact ⟨ho, fun ws => (step_eq _).trans (hsame ws)⟩

/-! A reset inside an operation. -/

/-- The state with no reset in sight. -/
def State.noReset (s : State) : State := { s with rstAfter := none }

theorem unseen_noReset (P : Params) : Unseen P State.noReset where
  effect m s := by
    cases m with
    | startByte src _ => cases src <;> rfl
    | dataBit _ src _ => cases src <;> rfl
    | _ => rfl
  microEvents m s := by
    cases m with
    | dataBit _ src _ => cases src <;> rfl
    | _ => rfl

theorem noResetWithin_noReset (n : Nat) (s : State) : NoResetWithin n s.noReset :=
  fun _ h => nomatch h

theorem bytesTaken_take_le (k : Nat) (ms : List Micro) : bytesTaken (ms.take k) ≤ bytesTaken ms :=
  (List.take_sublist k ms).count_le _

/-- What part of a sequence appends to the trace is what the whole begins with. -/
theorem eventsOf_take_prefix (P : Params) (k : Nat) (ms : List Micro) (s : State) :
    eventsOf P (ms.take k) s <+: eventsOf P ms s := by
  conv_rhs => rw [← List.take_append_drop k ms, eventsOf_append]
  exact List.prefix_append _ _

theorem effects_upc {P : Params} (ms : List Micro) (s : State) :
    (effects P ms s).upc = s.upc := by
  induction ms generalizing s with
  | nil => rfl
  | cons m ms ih => rw [effects_cons, ih, effect_upc]

/-- Settles O12: with the reset due after k micro-steps the run is the run of the first k with none in sight, and then `applyReset`. -/
theorem resetInsideAnOperationCutsItShort : Obligations.ResetInsideAnOperationCutsItShort := by
  unfold Obligations.ResetInsideAnOperationCutsItShort
  intro i s k hi hs hr hk
  have hlen : k < (micros (program i)).length := (length_program hi).symm ▸ hk
  have hbytes := bytesTaken_program hi hs
  have hfirst := runMicros_ideal params_ideal (ms := (micros (program i)).take k)
    (s := (begin s).noReset) (noResetWithin_noReset _ _) ((bytesTaken_take_le k _).trans hbytes)
  rw [(unseen_noReset params).effects, (unseen_noReset params).eventsOf,
    List.length_take_of_le hlen.le] at hfirst
  have hall := runMicros_reset params_ideal (s := begin s) hr hlen hbytes
  have hexec := exec_operation hi (Nat.zero_lt_of_lt hk) s
  rw [operate, hall] at hexec
  have hpre := eventsOf_take_prefix params k (micros (program i)) (begin s)
  rw [eventsOf_program params hi (s := begin s) hs, stringOf_begin] at hpre
  refine ⟨_, _, _, hfirst, ?_, ?_, hpre, hexec, ?_, rfl, rfl, rfl, rfl, rfl, rfl⟩
  · simp [progressed, State.noReset, effects_upc, Nat.add_comm]
  · simp [progressed, State.noReset, effects_trace]
  · simp [progressed, State.noReset]

end Sys2Proof.Machine

/-! PROOFS. SETCUR (R152, R184), the emissions of the LCD side (R77 to R79), the empty string (R156) and the byte of a set-address command (R185). -/

namespace Sys2Proof.Machine

/-- R152: the address goes through ADDR into BYTE; the drive of RS before the byte leaves no mark outside the trace. -/
theorem effects_setcurProgram {P : Params} (row column : Byte) (s : State) :
    effects P (micros (setcurProgram row column)) s =
      { s with
        addr := map P row column, byte := P.cmdSetDdram ||| map P row column, mode := .command
        out := restingLatches .low (lowNibble (P.cmdSetDdram ||| map P row column)) } := by
  rw [setcurProgram, effects_micros_cons, effects_openCursor, effects_micros_cons, effects_write]
  rfl

/-- R152: SETCUR of a row that is not refused, under any parameters with ideal collaborators. -/
theorem runSetcur_completes {P : Params} (hP : IdealCollaborators P) (row column : Byte)
    {s : State} (h : NoResetWithin 18 s) (hrow : rowRefused P row = false) :
    runSetcur P row column s =
      .next (completed 18
        ([Event.drive .rs .low] ++ byteEvents P (P.cmdSetDdram ||| map P row column) .command)
        { s with
          addr := map P row column, byte := P.cmdSetDdram ||| map P row column, mode := .command
          out := restingLatches .low (lowNibble (P.cmdSetDdram ||| map P row column)) }) := by
  have hrow' : RowAccepted P (.setcur row column) := by
    rintro _ _ ⟨⟩
    exact hrow
  exact execWith_completes (i := .setcur row column) hP rfl (Nat.zero_lt_succ 17) hrow'
    (fun _ e => nomatch e) rfl h (effects_setcurProgram row column (begin s))

/-- Settles O15: `runSetcur_completes`, `rowRefused_iff` and `execWith_refusedRow`; with the machine's parameters no row is refused. -/
theorem setcurSendsTheMappedAddress : Obligations.SetcurSendsTheMappedAddress := by
  unfold Obligations.SetcurSendsTheMappedAddress
  exact ⟨fun row column _ h => runSetcur_completes params_ideal row column h rfl,
    fun _ row column _ hP h hrow => runSetcur_completes hP row column h hrow,
    fun _ row h => rowRefused_iff h row,
    fun _ _ column s h => execWith_refusedRow h column s⟩

/-! Emissions. -/

/-- R104: a byte write that nothing cuts short, inside the operation that runs. -/
theorem transmit_byte (b : Byte) (m : RsMode) {s : State} (h : NoResetWithin 17 s) :
    transmit params (.write (.lit b) m) s = .next (progressed 17 (byteEvents params b m)
      { s with byte := b, mode := m, out := restingLatches m.level (lowNibble b) }) := by
  rw [transmit_ideal params_ideal (length_expand_write _ _) h (Nat.zero_le _),
    eventsOf_write, effects_write]
  rfl

/-- R103: a raw nibble that nothing cuts short, inside the operation that runs. -/
theorem transmit_nibble (n : Nibble) {s : State} (h : NoResetWithin 7 s) :
    transmit params (.raw (.lit n)) s = .next (progressed 7 (nibbleEvents n ++ pulseEvents params)
      { s with out := restingLatches s.out.rs n }) := by
  rw [transmit_ideal params_ideal (length_expand_raw _) h (Nat.zero_le _),
    eventsOf_raw, effects_raw]
  rfl

/-- Settles O23: each row is `transmit_byte` of its byte. -/
theorem commandRowsAreByteWrites : Obligations.CommandRowsAreByteWrites := by
  unfold Obligations.CommandRowsAreByteWrites
  rintro i b s h (⟨rfl, rfl⟩ | ⟨rfl, rfl⟩ | ⟨rfl, rfl⟩ | ⟨rfl, rfl⟩ | ⟨rfl, rfl⟩ | ⟨a, rfl, hb⟩)
  · exact transmit_byte 0x01 .command h
  · exact transmit_byte 0x06 .command h
  · exact transmit_byte 0x08 .command h
  · exact transmit_byte 0x0C .command h
  · exact transmit_byte 0x28 .command h
  · obtain rfl := (setAddressByte_iff b a).mpr hb
    exact transmit_byte _ .command h

/-- Settles O24: `transmit_byte` in mode Character. -/
theorem dataRowIsACharacterWrite : Obligations.DataRowIsACharacterWrite := by
  unfold Obligations.DataRowIsACharacterWrite
  exact fun d _ h => transmit_byte d .character h

/-- Settles O25: each row is `transmit_nibble` of its nibble. -/
theorem rawNibbleRowsPulseOnce : Obligations.RawNibbleRowsPulseOnce := by
  unfold Obligations.RawNibbleRowsPulseOnce
  rintro i n s h (⟨rfl, rfl⟩ | ⟨rfl, rfl⟩)
  · exact transmit_nibble 0b0011 h
  · exact transmit_nibble 0b0010 h

/-! The empty string. -/

/-- R156: with no byte sent only RS has moved. -/
theorem afterString_nil {l : Latches} {r : Level} (h : l.rs = r) : afterString r [] l = l := by
  subst h
  rfl

/-- R11: from RS Low neither drive of RS is one that changes nothing. -/
theorem waveform_toggleRs {l : Latches} (h : l.rs = .low) :
    waveform l [.drive .rs .high, .drive .rs .low, .done .ok] =
      [.drive .rs .high, .drive .rs .low, .done .ok] := by
  simp [waveform, visible, Latches.after, Latches.get, Latches.set, h]

/-- Settles O18: `runPuts_completes` of no byte, and the waveform of what is left of it. -/
theorem emptyStringOnlyTogglesRs : Obligations.EmptyStringOnlyTogglesRs := by
  unfold Obligations.EmptyStringOnlyTogglesRs
  intro s h hrs
  exact ⟨_, runPuts_completes params_ideal (bs := []) rfl h, by simp [completed, stringEvents],
    afterString_nil hrs, rfl, rfl, waveform_toggleRs hrs⟩

/-- Settles O28: an OR with 0x80 sets bit 7 and keeps the others, over all addresses. -/
theorem setAddressByteIsTheOr : Obligations.SetAddressByteIsTheOr := by
  unfold Obligations.SetAddressByteIsTheOr
  simp only [setDdramByte, params_cmdSetDdram]
  decide

end Sys2Proof.Machine

/-! PROOFS. Strings (20_memory.md section 5) and the sequencer (10_state.md section 3): a PUTS that waits (R62), an operation carried out by its micro-steps (R24, R244), and a wait that leaves no mark. -/

namespace Sys2Proof.Machine

/-! PUTS up to a string byte, and from there. -/

/-- R154: PUTS of `len` bytes up to the end of byte `k`. -/
def putsOpening (len k : Nat) : List Stmt := .openString len :: List.replicate k .writeString

/-- R154: what is left of PUTS with `n` bytes to send. -/
def putsEnding (n : Nat) : List Stmt :=
  List.replicate n Stmt.writeString ++ [Stmt.drive .rs .low]

theorem putsProgram_split (k n : Nat) :
    putsProgram (k + n) = putsOpening (k + n) k ++ putsEnding n := by
  simp [putsProgram, putsOpening, putsEnding, ← List.replicate_append_replicate]

theorem length_putsOpening (len k : Nat) : (micros (putsOpening len k)).length = 1 + 17 * k := by
  have hopen : (Stmt.openString len).expand.length = 1 := rfl
  rw [putsOpening, micros_cons, List.length_append, Laws.MicroSteps.length_loop, hopen]

theorem length_putsEnding (n : Nat) : (micros (putsEnding n)).length = 17 * n + 1 := by
  rw [putsEnding, micros_append, List.length_append, Laws.MicroSteps.length_loop]
  rfl

theorem bytesTaken_putsOpening (len k : Nat) : bytesTaken (micros (putsOpening len k)) = k := by
  have hopen : bytesTaken (Stmt.openString len).expand = 0 := rfl
  rw [putsOpening, micros_cons, bytesTaken, List.count_append, ← bytesTaken, ← bytesTaken,
    bytesTaken_strings, hopen, Nat.zero_add]

theorem bytesTaken_putsEnding (n : Nat) : bytesTaken (micros (putsEnding n)) = n := by
  have hclose : bytesTaken (micros [.drive .rs .low]) = 0 := rfl
  rw [putsEnding, micros_append, bytesTaken, List.count_append, ← bytesTaken, ← bytesTaken,
    bytesTaken_strings, hclose, Nat.add_zero]

/-- A pass through the loop starts with its string byte. -/
theorem micros_putsEnding_succ (n : Nat) :
    ∃ ns, micros (putsEnding (n + 1)) = .startStringByte :: ns := ⟨_, rfl⟩

theorem eventsOf_putsOpening (P : Params) {bs rest : List Byte} {s : State} (len : Nat)
    (h : s.payload = bs ++ rest) :
    eventsOf P (micros (putsOpening len bs.length)) s =
      [Event.drive .rs .high] ++ stringEvents P bs := by
  have hopen : (effects P (Stmt.openString len).expand s).payload = bs ++ rest := h
  rw [putsOpening, eventsOf_micros_cons, eventsOf_strings P bs rest hopen]
  rfl

theorem effects_putsOpening {P : Params} {bs rest : List Byte} {s : State} (len : Nat)
    (h : s.payload = bs ++ rest) :
    effects P (micros (putsOpening len bs.length)) s =
      { s with
        payload := rest, cnt := len - bs.length, byte := bs.getLast?.getD s.byte
        mode := if bs = [] then s.mode else .character
        out := afterString .high bs s.out } := by
  have hopen : (effects P (Stmt.openString len).expand s).payload = bs ++ rest := h
  rw [putsOpening, effects_micros_cons, effects_strings bs rest hopen, effects_openString]
  rcases List.eq_nil_or_concat bs with rfl | ⟨cs, b, rfl⟩
  · rfl
  · simp [sentString, afterString]

/-- The state of a PUTS of `len` bytes, started in `s`, that has sent `bs` and has `rest` on the channel, before its next string byte or its end. -/
def midString (P : Params) (len : Nat) (bs rest : List Byte) (s : State) : State :=
  progressed (1 + 17 * bs.length) ([Event.drive .rs .high] ++ stringEvents P bs)
    { begin s with
      payload := rest, cnt := len - bs.length, byte := bs.getLast?.getD s.byte
      mode := if bs = [] then s.mode else .character
      out := afterString .high bs s.out }

/-- `midString` is where the opening of the program leads. -/
theorem midString_eq {P : Params} {bs rest : List Byte} {s : State} (len : Nat)
    (h : s.payload = bs ++ rest) :
    midString P len bs rest s =
      progressed (micros (putsOpening len bs.length)).length
        (eventsOf P (micros (putsOpening len bs.length)) (begin s))
        (effects P (micros (putsOpening len bs.length)) (begin s)) := by
  rw [length_putsOpening, eventsOf_putsOpening P (s := begin s) len h,
    effects_putsOpening (s := begin s) len h]
  rfl

/-- R62: a PUTS whose string runs out stops before the byte that is missing. -/
theorem runPuts_starved {P : Params} (hP : IdealCollaborators P) {bs : List Byte} {s : State}
    (n : Nat) (hs : s.payload = bs) (h : NoResetWithin (2 + 17 * bs.length) s) :
    runPuts P (bs.length + (n + 1)) s =
      .next (waiting (midString P (bs.length + (n + 1)) bs [] s)) := by
  have hs' : s.payload = bs ++ [] := hs.trans (List.append_nil bs).symm
  obtain ⟨ns, hns⟩ := micros_putsEnding_succ n
  have heffects := effects_putsOpening (P := P) (s := begin s) (bs.length + (n + 1)) hs'
  have hrun := runMicros_starved hP (s := begin s) (ns := ns)
    (ms := micros (putsOpening (bs.length + (n + 1)) bs.length))
    (h.mono (by rw [length_putsOpening]; omega))
    (by rw [bytesTaken_putsOpening, begin_payload, hs]) (congrArg State.payload heffects)
  rw [← midString_eq _ hs'] at hrun
  rw [runPuts, operate, putsProgram_split, micros_append, hns, hrun]

/-- Settles O19: `runPuts_starved`, with `midString` written out. -/
theorem putsWaitsForAMissingByte : Obligations.PutsWaitsForAMissingByte := by
  unfold Obligations.PutsWaitsForAMissingByte
  intro len s hlen h
  obtain ⟨n, rfl⟩ : ∃ n, len = s.payload.length + (n + 1) := Nat.exists_eq_add_of_lt hlen
  refine (runPuts_starved params_ideal n rfl h).trans (congrArg Host.Outcome.next ?_)
  have hupc : 1 + (1 + 17 * s.payload.length) = 2 + 17 * s.payload.length := by omega
  have hrst : (s.rstAfter.map (· - (1 + 17 * s.payload.length))).map (· - 1) =
      s.rstAfter.map (· - (2 + 17 * s.payload.length)) := by
    rw [Option.map_map]
    congr 1
    funext k
    simp only [Function.comp_apply]
    omega
  simp only [midString, progressed, waiting, begin, hupc, hrst, List.append_assoc]

/-! An operation, micro-step by micro-step. -/

/-- How an operation ends after a run of the micro-steps it had left (R10). -/
def Run.close : Run State → Host.Outcome State Fault Refusal
  | .going t => .next (finish .ok t)
  | .halted t => .next t

theorem Run.close_safe (r : Run State) : Safe r.close := by
  cases r with
  | going t => exact ⟨_, rfl⟩
  | halted t => exact ⟨_, rfl⟩

theorem operate_eq_close (P : Params) (p : List Stmt) (s : State) :
    operate P p s = (runMicros P (micros p) (begin s)).close := by
  unfold operate
  cases runMicros P (micros p) (begin s) <;> rfl

/-- What the sequencer carries out, micro-step by micro-step, is the run of the micro-steps the operation has left, whose string bytes are there. -/
theorem microSteps_onTrack {P : Params} (hP : IdealCollaborators P) {ms : List Micro} {s : State}
    (h : OnTrack ms s) (hb : bytesTaken ms ≤ s.payload.length) (hne : ms ≠ []) :
    microSteps P ms.length s = (runMicros P ms s).close := by
  induction ms generalizing s with
  | nil => exact absurd rfl hne
  | cons m ms ih =>
    obtain ⟨hbyte, hbytes⟩ := bytesTaken_effect (P := P) hb
    rcases perform_ideal_cases hP m s with ⟨-, e⟩ | ⟨-, hm, hp, -⟩ | ⟨-, e⟩
    · simp [microSteps, microStep_halted h.currentMicro e, runMicros, e, Run.close, Status.reset]
    · exact absurd hp (hbyte hm)
    · rw [List.length_cons, microSteps, microStep_going h.currentMicro e, runMicros_cons e]
      have hnext := h.next (P := P)
      cases ms with
      | nil => simp [closeIfOver_nil hnext, Run.close]
      | cons m' ms' =>
        simp only [closeIfOver_cons hnext, hnext.busy, if_true]
        exact ih hnext hbytes (List.cons_ne_nil m' ms')

/-- Settles O40: an accepted operation has all its micro-steps ahead (`onTrack_begin`), and the sequencer carries them out (`microSteps_onTrack`). -/
theorem microStepsMakeTheOperation : Obligations.MicroStepsMakeTheOperation := by
  unfold Obligations.MicroStepsMakeTheOperation
  rintro i s rfl hc hs
  have hi : isHostOp (decodeWord s.cw) = true := isHostOp_running s
  have hlen := length_program hi
  have hne : micros (program (decodeWord s.cw)) ≠ [] :=
    List.ne_nil_of_length_pos (hlen.symm ▸ hc)
  rw [exec_operation hi hc, operate_eq_close, ← hlen]
  exact microSteps_onTrack params_ideal (onTrack_begin s) (bytesTaken_program hi hs) hne

/-! A wait for string bytes. -/

/-- A stretch of the running operation that nothing cuts short. -/
theorem OnTrack.run {P : Params} {ms ns : List Micro} {s : State} (h : OnTrack (ms ++ ns) s) :
    OnTrack ns (progressed ms.length (eventsOf P ms s) (effects P ms s)) := by
  induction ms generalizing s with
  | nil => rwa [List.length_nil, eventsOf_nil, effects_nil, progressed_zero]
  | cons m ms ih =>
    have htail := ih (h.next (P := P))
    rwa [effects_progressed, eventsOf_progressed,
      progressed_progressed (k := ms.length + 1) (Nat.add_comm _ _)] at htail

/-- In the middle of its string a PUTS has the rest of it ahead. -/
theorem onTrack_midString (P : Params) {bs rest : List Byte} {s : State} {n : Nat}
    (hw : s.running = .puts (bs.length + n)) (h : s.payload = bs ++ rest) :
    OnTrack (micros (putsEnding n)) (midString P (bs.length + n) bs rest s) := by
  have hbegin := onTrack_begin s
  rw [hw, program, putsProgram_split, micros_append] at hbegin
  rw [midString_eq _ h]
  exact hbegin.run

/-- R154: a whole string is its first bytes and then, from `midString`, the others. -/
theorem runPuts_split {P : Params} (hP : IdealCollaborators P) {bs rest : List Byte} {s : State}
    (n : Nat) (hs : s.payload = bs ++ rest) (h : NoResetWithin (1 + 17 * bs.length) s) :
    runPuts P (bs.length + n) s =
      (runMicros P (micros (putsEnding n)) (midString P (bs.length + n) bs rest s)).close := by
  have hopening := runMicros_ideal hP (s := begin s)
    (ms := micros (putsOpening (bs.length + n) bs.length)) (by rwa [length_putsOpening])
    (by rw [bytesTaken_putsOpening, begin_payload, hs]; simp)
  rw [← midString_eq _ hs] at hopening
  rw [runPuts, operate_eq_close, putsProgram_split, micros_append, runMicros_seq hopening]

/-- Settles O41: a wait stops the PUTS in a `midString`; with the rest of the string there it is the state in which the whole string has come as far, and from it steps, micro-steps and meaning are one. -/
theorem aWaitForBytesLeavesNoMark : Obligations.AWaitForBytesLeavesNoMark := by
  unfold Obligations.AWaitForBytesLeavesNoMark
  intro s t bs₁ bs₂ rest hw hr hne ht
  obtain ⟨n, hn⟩ : ∃ n, bs₂.length = n + 1 :=
    Nat.exists_eq_succ_of_ne_zero (mt List.length_eq_zero_iff.mp hne)
  have hclear : ∀ (k : Nat) (bs : List Byte), NoResetWithin k { s with payload := bs } :=
    fun k bs j hj => by simp [hr] at hj
  rw [hn] at ht hw ⊢
  have hwait := runPuts_starved params_ideal (s := { s with payload := bs₁ }) n rfl (hclear _ _)
  obtain rfl := Host.Outcome.next.inj (hwait.symm.trans ht)
  have hmid : { waiting (midString params (bs₁.length + (n + 1)) bs₁ [] { s with payload := bs₁ })
        with payload := bs₂ ++ rest } =
      midString params (bs₁.length + (n + 1)) bs₁ (bs₂ ++ rest)
        { s with payload := bs₁ ++ bs₂ ++ rest } := by
    simp [midString, progressed, waiting, begin, hr]
  rw [hmid]
  have hstr : bs₁ ++ bs₂ ++ rest = bs₁ ++ (bs₂ ++ rest) := List.append_assoc _ _ _
  have htrack := onTrack_midString params (s := { s with payload := bs₁ ++ bs₂ ++ rest }) hw hstr
  have hbytes : bytesTaken (micros (putsEnding (n + 1))) ≤ (bs₂ ++ rest).length := by
    rw [bytesTaken_putsEnding, List.length_append, hn]
    omega
  have hending : micros (putsEnding (n + 1)) ≠ [] :=
    List.ne_nil_of_length_pos (by rw [length_putsEnding]; omega)
  have hexec := runPuts_split params_ideal (n + 1) hstr (hclear _ _)
  have hmicro := microSteps_onTrack params_ideal htrack hbytes hending
  have hsteps := steps_onTrack htrack hw (by simp [midString, progressed, hr]) hbytes hending
  rw [length_putsEnding] at hmicro hsteps
  obtain ⟨u, hu⟩ := Run.close_safe (runMicros params (micros (putsEnding (n + 1)))
    (midString params (bs₁.length + (n + 1)) bs₁ (bs₂ ++ rest)
      { s with payload := bs₁ ++ bs₂ ++ rest }))
  rw [hu] at hmicro hexec
  exact ⟨u, hsteps.trans hmicro, hmicro, hexec⟩

end Sys2Proof.Machine

/-! PROOFS. The settle delay and what RS reads back as (R22, R102, R236). -/

namespace Sys2Proof.Machine

/-- R22: past the input list the sampled level is a free value. -/
theorem rsReadBack_of_free {P : Params} (h : P.rsLoopback = false) {s : State}
    (hs : s.rsIn = []) :
    rsReadBack P s = (Config.freeSample s.draws, { s with draws := s.draws + 1 }) := by
  simp [rsReadBack, h, hs]

/-- R102: a settle delay lasts at least the short minimum where that is the lesser one. -/
theorem tShortMinUs_le_settleEvents {P : Params} (h : P.tShortMinUs ≤ P.tLongMinUs) (r : Level) :
    P.tShortMinUs ≤ minElapsed (settleEvents P r) := by
  rw [minElapsed_settleEvents, settleClass]
  split
  · exact h
  · exact le_rfl

/-- Settles O29: `settleDelay_of_infallible` for each source of the level read back, and the least time of its two events. -/
theorem settleDelayFollowsTheReadBack : Obligations.SettleDelayFollowsTheReadBack := by
  unfold Obligations.SettleDelayFollowsTheReadBack
  refine ⟨fun P s hP => ⟨fun hl => settleDelay_of_ideal ⟨hP, hl⟩ s, fun r rs hl hs => ?_,
    fun hl hs => ⟨Config.freeSample s.draws, ?_⟩, fun r h => tShortMinUs_le_settleEvents h r⟩,
    fun r => ?_⟩
  · rw [settleDelay_of_infallible hP, rsReadBack_of_input hl hs]
  · rw [settleDelay_of_infallible hP, rsReadBack_of_free hl hs]
  · exact tShortMinUs_le_settleEvents (P := params) (by decide) r

/-! Micro-steps that read nothing back do the same with a foreign writer of RS as without. -/

/-- The parameters with RS read back from its latch. -/
def withLoopback (P : Params) : Params := { P with rsLoopback := true }

/-- Whether a micro-step samples RS. -/
def Micro.samplesRs : Micro → Bool
  | .settle | .settleCount => true
  | .drive _ _ | .wait _ | .startByte _ _ | .startStringByte | .dataBit _ _ _ => false
  | .openCursor _ _ | .openString _ => false

theorem perform_withLoopback (P : Params) {m : Micro} (h : m.samplesRs = false) (s : State) :
    perform (withLoopback P) m s = perform P m s := by
  cases m with
  | settle | settleCount => cases h
  | _ => rfl

theorem runMicros_withLoopback (P : Params) {ms : List Micro} (h : ∀ m ∈ ms, m.samplesRs = false)
    (s : State) : runMicros (withLoopback P) ms s = runMicros P ms s := by
  induction ms generalizing s with
  | nil => rfl
  | cons m ms ih =>
    obtain ⟨hm, hms⟩ := List.forall_mem_cons.mp h
    rw [runMicros, runMicros, perform_withLoopback P hm]
    congr 1
    exact funext (ih hms)

theorem effects_withLoopback (P : Params) (ms : List Micro) (s : State) :
    effects (withLoopback P) ms s = effects P ms s := by
  induction ms generalizing s with
  | nil => rfl
  | cons m ms ih => exact ih (effect P m s)

theorem eventsOf_withLoopback (P : Params) (ms : List Micro) (s : State) :
    eventsOf (withLoopback P) ms s = eventsOf P ms s := by
  induction ms generalizing s with
  | nil => rfl
  | cons m ms ih => exact congrArg (microEvents P m s ++ ·) (ih (effect P m s))

/-- A stretch of micro-steps that nothing cuts short and that reads nothing back. -/
theorem runMicros_unsampled {P : Params} (hP : P.collabFaults = false) {ms : List Micro} {s : State}
    (hms : ∀ m ∈ ms, m.samplesRs = false) (h : NoResetWithin ms.length s)
    (hb : bytesTaken ms ≤ s.payload.length) :
    runMicros P ms s = .going (progressed ms.length (eventsOf P ms s) (effects P ms s)) := by
  rw [← runMicros_withLoopback P hms, runMicros_ideal (P := withLoopback P) ⟨hP, rfl⟩ h hb,
    effects_withLoopback, eventsOf_withLoopback]

/-- R22: a settle delay that reads a foreign level. -/
theorem perform_settle_of_input {P : Params} (hP : P.collabFaults = false)
    (hl : P.rsLoopback = false) {s : State} {r : Level} {rs : List Level} (hs : s.rsIn = r :: rs)
    (h : NoResetWithin 1 s) :
    perform P .settle s = .going (progressed 1 (settleEvents P r) { s with rsIn := rs }) := by
  have hs' : (waiting s).rsIn = r :: rs := hs
  rw [perform_of_clear h.not_due, act, settleDelay_of_infallible hP, rsReadBack_of_input hl hs']
  rfl

/-- R104 steps 1 to 3: the byte latched, RS driven, and the high nibble pulsed. -/
def highHalf (b : Byte) (m : RsMode) : List Micro :=
  .startByte (.lit b) m :: (driveNibble .byteHigh ++ pulseEn)

/-- R104 step 5: the low nibble pulsed. -/
def lowHalf : List Micro := driveNibble .byteLow ++ pulseEn

theorem micros_wrbProgram (b : Byte) (m : RsMode) :
    micros (wrbProgram b m) = highHalf b m ++ Micro.settle :: (lowHalf ++ [Micro.settle]) := rfl

theorem effects_highHalf {P : Params} (b : Byte) (m : RsMode) (s : State) :
    effects P (highHalf b m) s =
      { s with byte := b, mode := m, out := restingLatches m.level (highNibble b) } := rfl

theorem eventsOf_highHalf (P : Params) (b : Byte) (m : RsMode) (s : State) :
    eventsOf P (highHalf b m) s =
      [Event.drive .rs m.level] ++ nibbleEvents (highNibble b) ++ pulseEvents P := rfl

theorem effects_lowHalf {P : Params} (s : State) :
    effects P lowHalf s = { s with out := restingLatches s.out.rs (lowNibble s.byte) } := by
  rw [lowHalf, effects_append, effects_driveNibble, effects_pulseEn]
  rfl

theorem eventsOf_lowHalf (P : Params) (s : State) :
    eventsOf P lowHalf s = nibbleEvents (lowNibble s.byte) ++ pulseEvents P := rfl

theorem highHalf_unsampled (b : Byte) (m : RsMode) : ∀ x ∈ highHalf b m, x.samplesRs = false := by
  simp [highHalf, driveNibble, pulseEn, Micro.samplesRs]

theorem lowHalf_unsampled : ∀ x ∈ lowHalf, x.samplesRs = false := by
  simp [lowHalf, driveNibble, pulseEn, Micro.samplesRs]

/-- Half of WRB from the state `s`: a stretch `ms` that samples nothing, then the settle delay with the level `r` read back. -/
theorem runMicros_half {P : Params} (hP : P.collabFaults = false) (hl : P.rsLoopback = false)
    {ms : List Micro} {s : State} {r : Level} {rs : List Level}
    (hms : ∀ m ∈ ms, m.samplesRs = false) (hb : bytesTaken ms ≤ s.payload.length)
    (hs : (effects P ms s).rsIn = r :: rs) (h : NoResetWithin (ms.length + 1) s)
    (ns : List Micro) :
    runMicros P (ms ++ Micro.settle :: ns) s =
      runMicros P ns (progressed (ms.length + 1) (eventsOf P ms s ++ settleEvents P r)
        { effects P ms s with rsIn := rs }) := by
  have hstretch := runMicros_unsampled hP hms (h.mono (Nat.le_succ _)) hb
  have hsettle := perform_settle_of_input hP hl
    (s := progressed ms.length (eventsOf P ms s) (effects P ms s)) hs
    (h.after le_rfl _ (effects_rstAfter ms s))
  rw [runMicros_seq hstretch, runMicros_cons hsettle,
    ← progressed_progressed (m := ms.length) (n := 1) rfl]
  rfl

theorem runMicros_highHalf {P : Params} (hP : P.collabFaults = false) (hl : P.rsLoopback = false)
    (b : Byte) (m : RsMode) {s : State} {r : Level} {rs : List Level} (hs : s.rsIn = r :: rs)
    (h : NoResetWithin 9 s) (ns : List Micro) :
    runMicros P (highHalf b m ++ Micro.settle :: ns) s =
      runMicros P ns (progressed 9
        ([Event.drive .rs m.level] ++ nibbleEvents (highNibble b) ++ pulseEvents P
          ++ settleEvents P r)
        { s with
          byte := b, mode := m, rsIn := rs, out := restingLatches m.level (highNibble b) }) := by
  rw [runMicros_half hP hl (highHalf_unsampled b m) (Nat.zero_le _)
    (by rw [effects_highHalf, hs]) h ns, effects_highHalf, eventsOf_highHalf]
  rfl

theorem runMicros_lowHalf {P : Params} (hP : P.collabFaults = false) (hl : P.rsLoopback = false)
    {s : State} {r : Level} {rs : List Level} (hs : s.rsIn = r :: rs) (h : NoResetWithin 8 s) :
    runMicros P (lowHalf ++ [Micro.settle]) s =
      .going (progressed 8 (nibbleEvents (lowNibble s.byte) ++ pulseEvents P ++ settleEvents P r)
        { s with rsIn := rs, out := restingLatches s.out.rs (lowNibble s.byte) }) := by
  rw [runMicros_half hP hl lowHalf_unsampled (Nat.zero_le _) (by rw [effects_lowHalf, hs]) h [],
    effects_lowHalf, eventsOf_lowHalf]
  rfl

/-- R104: the micro-steps of WRB, each half with the level that its own settle delay reads. -/
theorem runMicros_wrb_foreign {P : Params} (hP : P.collabFaults = false)
    (hl : P.rsLoopback = false) (b : Byte) (m : RsMode) {s : State} {r₁ r₂ : Level}
    {rs : List Level} (hs : s.rsIn = r₁ :: r₂ :: rs) (h : NoResetWithin 17 s) :
    runMicros P (micros (wrbProgram b m)) s =
      .going (progressed 17 (sampledByteEvents P b m r₁ r₂)
        { s with
          byte := b, mode := m, rsIn := rs, out := restingLatches m.level (lowNibble b) }) := by
  rw [micros_wrbProgram, runMicros_highHalf hP hl b m hs (h.mono (by decide)),
    runMicros_lowHalf hP hl (r := r₂) (rs := rs)]
  · simp [progressed, sampledByteEvents, Nat.sub_sub, Function.comp_def]
  · rfl
  · exact h.after (by decide : 9 + 8 ≤ 17) _ rfl

/-- Settles O30: `runMicros_wrb_foreign`, and the end of the operation. -/
theorem foreignRsDecidesTheWaits : Obligations.ForeignRsDecidesTheWaits := by
  unfold Obligations.ForeignRsDecidesTheWaits
  intro P b m s r₁ r₂ rs hP hl hs h
  exact operate_of_going (runMicros_wrb_foreign hP hl b m (s := begin s) hs h.begin)

end Sys2Proof.Machine

/-! PROOFS. The observers (R11, R12, R106, R108): what the controller takes, the order of the data lines, the times. -/

namespace Sys2Proof.Machine

/-! What the controller takes (R108), for the pieces the traces are made of. -/

/-- From latches with EN Low the controller takes `ps` of the events `es`, which leave EN Low. -/
def Takes (es : List Event) (ps : List (Level × Nibble)) : Prop :=
  ∀ l : Latches, l.en = .low → latched l es = ps ∧ (es.foldl Latches.after l).en = .low

theorem Takes.append {es fs : List Event} {ps qs : List (Level × Nibble)} (h : Takes es ps)
    (k : Takes fs qs) : Takes (es ++ fs) (ps ++ qs) := by
  intro l hl
  obtain ⟨hes, hen⟩ := h l hl
  obtain ⟨hfs, hen'⟩ := k _ hen
  exact ⟨by rw [latched_append, hes, hfs], by rwa [List.foldl_append]⟩

theorem takes_nil : Takes [] [] := fun _ h => ⟨rfl, h⟩

theorem takes_rs (v : Level) : Takes [.drive .rs v] [] :=
  fun _ h => ⟨by simp [latched, latch], h⟩

theorem takes_done (e : ErrCode) : Takes [.done e] [] :=
  fun _ h => ⟨by simp [latched, latch], h⟩

/-- R104: a byte, with the RS it drives. -/
theorem takes_byte (P : Params) (b : Byte) (m : RsMode) :
    Takes (byteEvents P b m) (pairOf m.level b) :=
  fun l h => ⟨latched_byteEvents P b m h, by rw [after_byteEvents]; rfl⟩

/-- R154: a string. -/
theorem takes_string (P : Params) (bs : List Byte) :
    Takes (stringEvents P bs) (bs.flatMap (pairOf .high)) := by
  induction bs with
  | nil => exact takes_nil
  | cons b bs ih => exact (takes_byte P b .character).append ih

theorem latched_wait (l : Latches) (k : WaitClass) (us : Nat) : latched l [.wait k us] = [] := by
  simp [latched, latch]

/-- R131: the four raw nibbles of INIT, sent with RS Low. -/
theorem takes_rawNibbles (P : Params) :
    Takes ([.drive .rs .low, .wait .pwr P.tPwrMinUs]
        ++ rawEvents P P.nibFs8 ++ [.wait .gap1 P.tGap1MinUs]
        ++ rawEvents P P.nibFs8 ++ [.wait .gap2 P.tGap2MinUs]
        ++ rawEvents P P.nibFs8 ++ [.wait .gap3 P.tGap3MinUs]
        ++ rawEvents P P.nibFs4 ++ [.wait .fourBit P.t4BitMinUs])
      [(.low, P.nibFs8), (.low, P.nibFs8), (.low, P.nibFs8), (.low, P.nibFs4)] := by
  intro l h
  have hstart : latched l [.drive .rs .low, .wait .pwr P.tPwrMinUs] = [] := by
    simp [latched, latch]
  have hen : (l.set .rs .low).en = .low := h
  refine ⟨?_, rfl⟩
  simp only [latched_append, List.foldl_append, hstart, latched_wait, after_rawEvents,
    List.foldl_cons, List.foldl_nil, Latches.after, List.append_nil, List.nil_append]
  rw [latched_rawEvents P _ hen]
  simp only [latched_rawEvents P _ (restingLatches_en _ _), restingLatches_rs]
  rfl

/-- R106, R108: what the controller takes of a full trace with this spec's parameters. -/
theorem takes_fullEvents (bs : List Byte) (i : Instr) :
    Takes (fullEvents params bs i) (latchedOf bs i) := by
  cases i with
  | init =>
    exact (((((takes_rawNibbles params).append (takes_byte params 0x28 .command)).append
      (takes_byte params 0x08 .command)).append (takes_byte params 0x01 .command)).append
      (takes_byte params 0x06 .command)).append (takes_byte params 0x0C .command)
  | clear => exact takes_byte params 0x01 .command
  | wrb b m => exact takes_byte params b m
  | setcur row column => exact (takes_rs .low).append (takes_byte params _ .command)
  | putc c =>
    exact ((takes_rs .high).append (takes_byte params c .character)).append (takes_rs .low)
  | puts len =>
    have h := ((takes_rs .high).append (takes_string params bs)).append (takes_rs .low)
    rwa [List.nil_append, List.append_nil] at h
  | putsNull | reserved6 | reserved7 => exact takes_nil
  | lcdClear | lcdEntry | lcdDispOff | lcdDispOn | lcdFuncset => exact takes_nil
  | lcdSetDdram _ | lcdData _ | lcdNibFs8 | lcdNibFs4 => exact takes_nil

/-- R106: two pairs to a byte. -/
theorem length_flatMap_pairOf (r : Level) (bs : List Byte) :
    (bs.flatMap (pairOf r)).length = 2 * bs.length := by
  induction bs with
  | nil => rfl
  | cons b bs ih =>
    rw [List.flatMap_cons, List.length_append, ih, List.length_cons]
    simp only [pairOf, List.length_cons, List.length_nil]
    omega

/-- R106: there are as many pulses as pairs taken. -/
theorem length_latchedOf (bs : List Byte) (i : Instr) :
    (latchedOf bs i).length = pulseCount bs.length i := by
  cases i with
  | puts len => exact length_flatMap_pairOf .high bs
  | _ => rfl

/-- R53: the bytes of a sequence of byte writes, paired again. -/
theorem latchedBytes_flatMap_pairOf (r : Level) (bs : List Byte) :
    latchedBytes (bs.flatMap (pairOf r)) = bs.map fun b => (r, b) := by
  have hbyte : ∀ b : Byte, highNibble b ++ lowNibble b = b := by decide
  induction bs with
  | nil => rfl
  | cons b bs ih =>
    rw [List.flatMap_cons, pairOf, List.cons_append, List.cons_append, List.nil_append,
      latchedBytes, ih, hbyte, List.map_cons]

/-- Settles O45: the controller takes the pairs of the full trace (`takes_fullEvents`) and nothing of the `Done`. -/
theorem controllerTakesExactlyTheNibbles : Obligations.ControllerTakesExactlyTheNibbles := by
  unfold Obligations.ControllerTakesExactlyTheNibbles
  intro i s hi hs hr hen
  obtain ⟨t, ht, -, htrace, -⟩ := exec_runs_fullEvents hi hs hr
  obtain ⟨htakes, -⟩ :=
    ((takes_fullEvents (stringOf s i) i).append (takes_done (endCode i))) s.out hen
  rw [List.append_nil] at htakes
  refine ⟨t, _, ht, htrace, htakes, ?_, ?_⟩
  · rw [pulses_append, pulses_fullEvents, length_latchedOf]
    rfl
  · rintro len rfl
    rw [htakes]
    exact latchedBytes_flatMap_pairOf .high _

/-! The order of the data lines (D16). -/

/-- R108: a drive of a data line is no pulse. -/
theorem latched_drive_data {a : Line} (h : isDataLine a = true) (v : Level) (l : Latches)
    (es : List Event) : latched l (.drive a v :: es) = latched (l.set a v) es := by
  have hen : a ≠ .en := by
    rintro rfl
    cases h
  simp [latched, latch, hen, Latches.after]

theorem SameUpToDataOrder.perm {es fs : List Event} (h : SameUpToDataOrder es fs) : es.Perm fs := by
  induction h with
  | refl es => exact .refl es
  | swap a b v w es => exact .swap _ _ es
  | cons e _ ih => exact ih.cons e
  | trans _ _ ih ih' => exact ih.trans ih'

theorem SameUpToDataOrder.after {es fs : List Event} (h : SameUpToDataOrder es fs) (l : Latches) :
    es.foldl Latches.after l = fs.foldl Latches.after l := by
  induction h generalizing l with
  | refl es => rfl
  | swap a b v w es _ _ hab =>
    exact congrArg (es.foldl Latches.after) (l.set_comm v w hab)
  | cons e _ ih => exact ih (l.after e)
  | trans _ _ ih ih' => exact (ih l).trans (ih' l)

theorem SameUpToDataOrder.latched {es fs : List Event} (h : SameUpToDataOrder es fs)
    (l : Latches) : latched l es = latched l fs := by
  induction h generalizing l with
  | refl es => rfl
  | swap a b v w es ha hb hab =>
    rw [latched_drive_data ha, latched_drive_data hb, latched_drive_data hb,
      latched_drive_data ha, l.set_comm v w hab]
  | cons e _ ih => exact congrArg (latch l e ++ ·) (ih (l.after e))
  | trans _ _ ih ih' => exact (ih l).trans (ih' l)

/-- Settles O46: the pulses and the times are sums over the same events (`SameUpToDataOrder.perm`). -/
theorem dataLineOrderIsInvisible : Obligations.DataLineOrderIsInvisible := by
  unfold Obligations.DataLineOrderIsInvisible
  exact fun es fs h => ⟨fun l => ⟨h.latched l, h.after l⟩, h.perm.count_eq _,
    (h.perm.map Event.minUs).sum_eq⟩

/-! Times (R12). -/

theorem minElapsed_cons (e : Event) (es : List Event) :
    minElapsed (e :: es) = e.minUs + minElapsed es := by
  rw [minElapsed, List.map_cons, List.sum_cons, minElapsed]

theorem minElapsed_le_elapsed (extra : Nat → Nat) (es : List Event) :
    minElapsed es ≤ elapsed extra es := by
  induction es generalizing extra with
  | nil => exact le_rfl
  | cons e es ih =>
    have := ih fun k => extra (k + 1)
    rw [minElapsed_cons, elapsed]
    omega

theorem elapsed_zero (es : List Event) : elapsed (fun _ => 0) es = minElapsed es := by
  induction es with
  | nil => rfl
  | cons e es ih => rw [minElapsed_cons, elapsed, ih, Nat.add_zero]

/-- Settles O48: both by induction on the trace. -/
theorem waitsAreLowerBounds : Obligations.WaitsAreLowerBounds := by
  unfold Obligations.WaitsAreLowerBounds
  exact fun es => ⟨fun extra => minElapsed_le_elapsed extra es, elapsed_zero es⟩

end Sys2Proof.Machine

/-! PROOFS. The boundary (60_exceptions.md section 7): the Delay capability (R210) and the lines (R211). -/

namespace Sys2Proof.Machine

/-- Settles O50: each hint is its minimum plus a slack, or the number R6 gives. -/
theorem waitsCallTheDelayCapability : Obligations.WaitsCallTheDelayCapability := by
  unfold Obligations.WaitsCallTheDelayCapability
  exact ⟨rfl, ⟨_, Nat.le_add_right _ _, rfl⟩, rfl, ⟨_, Nat.le_add_right _ _, rfl⟩,
    ⟨_, Nat.le_add_right _ _, rfl⟩, ⟨_, Nat.le_add_right _ _, rfl⟩, ⟨_, rfl⟩,
    ⟨_, Nat.le_add_right _ _, rfl⟩, fun _ _ => rfl⟩

/-- R21: the six lines. -/
def allLines : List Line := [.rs, .en, .d4, .d5, .d6, .d7]

theorem mem_allLines (l : Line) : l ∈ allLines := by cases l <;> decide

/-- D30: no two lines share an identifier. -/
theorem id_injective (a : LineAssignment) : Function.Injective a.id := by
  intro l m h
  have hnodup : (allLines.map a.id).Nodup := a.distinct
  exact List.inj_on_of_nodup_map hnodup (mem_allLines l) (mem_allLines m) h

/-- R211: at a line's identifier stands that line. -/
theorem lineAt_id (a : LineAssignment) (l : Line) : lineAt a (a.id l) = some l := by
  have hfind : allLines.find? (· == l) = some l := by cases l <;> rfl
  rw [← hfind, lineAt]
  congr 1
  funext m
  exact Bool.eq_iff_iff.mpr (by simp [(id_injective a).eq_iff])

theorem pinAt_id (a : LineAssignment) (s : State) (l : Line) :
    s.pinAt a (a.id l) = some (s.out.get l) := by
  rw [State.pinAt, lineAt_id]
  rfl

/-- R21: writing one latch moves that line only. -/
theorem get_set (l : Latches) (m n : Line) (v : Level) :
    (l.set m v).get n = if n = m then v else l.get n := by
  split
  · subst n
    exact l.get_set_same m v
  · exact l.get_set_other v ‹_›

/-- Settles O51: `id_injective`, `pinAt_id` before and after the write, and `get_set`. -/
theorem pinsCarryTheirLatches : Obligations.PinsCarryTheirLatches := by
  unfold Obligations.PinsCarryTheirLatches
  intro a s l m v
  exact ⟨fun h => id_injective a h, pinAt_id a s l,
    (pinAt_id a _ l).trans (congrArg some (get_set s.out m l v))⟩

end Sys2Proof.Machine

/-! PROOFS. Where an instruction leaves off, from every state (R62, R232), and what follows: its frame (R20, R23) and the causes of the conditions (R201, R202). -/

namespace Sys2Proof.Machine

/-! Where an instruction leaves off. -/

/-- The state after the first `k` of the micro-steps `ms`, with nothing cutting them short. -/
def partway (P : Params) (ms : List Micro) (k : Nat) (s : State) : State :=
  progressed k (eventsOf P (ms.take k) s) (effects P (ms.take k) s)

/-- What the machine makes of the state `u` in which micro-steps have stopped: nothing more, the end of the operation (R10), the reset that is due (R232), or a wait for a string byte (R62). -/
inductive EndsIn (u : State) : State → Prop where
  | stopped : EndsIn u u
  | done : EndsIn u (finish .ok u)
  | reset (h : u.rstAfter = some 0) : EndsIn u (applyReset u)
  | starved : EndsIn u (waiting u)

/-- A run of micro-steps goes on to its end, or it ends partway by a reset or for want of a byte. -/
theorem runMicros_partway {P : Params} (hP : IdealCollaborators P) (ms : List Micro) (s : State) :
    runMicros P ms s = .going (partway P ms ms.length s) ∨
      ∃ k t, runMicros P ms s = .halted t ∧ EndsIn (partway P ms k s) t := by
  rcases runMicros_outcome hP ms s with h | ⟨k, -, ⟨h, hr⟩ | ⟨h, -, -⟩⟩
  · exact .inl (by rw [h, partway, List.take_length])
  · exact .inr ⟨k, _, h, .reset hr⟩
  · exact .inr ⟨k, _, h, .starved⟩

theorem operate_endsIn {P : Params} (hP : IdealCollaborators P) (p : List Stmt) (s : State) :
    ∃ k t, operate P p s = .next t ∧ EndsIn (partway P (micros p) k (begin s)) t := by
  rcases runMicros_partway hP (micros p) (begin s) with h | ⟨k, t, h, ht⟩
  · exact ⟨_, _, operate_of_going h, .done⟩
  · exact ⟨k, t, by rw [operate_eq_close, h]; rfl, ht⟩

theorem transmit_endsIn {P : Params} (hP : IdealCollaborators P) (p : Stmt) (s : State) :
    ∃ k t, transmit P p s = .next t ∧ EndsIn (partway P p.expand k s) t := by
  rcases runMicros_partway hP p.expand s with h | ⟨k, t, h, ht⟩
  · exact ⟨_, _, by rw [transmit, h]; rfl, .stopped⟩
  · exact ⟨k, t, by rw [transmit, h]; rfl, ht⟩

/-- R77 to R79: the statement that a row of the LCD side means (log 12). -/
def emissionOf : Instr → Option Stmt
  | .lcdClear => some (.write (.lit cmdClear) .command)
  | .lcdEntry => some (.write (.lit cmdEntry) .command)
  | .lcdDispOff => some (.write (.lit cmdDispOff) .command)
  | .lcdDispOn => some (.write (.lit cmdDispOn) .command)
  | .lcdFuncset => some (.write (.lit cmdFuncset) .command)
  | .lcdSetDdram a => some (.write (.lit ((1 : BitVec 1) ++ a)) .command)
  | .lcdData d => some (.write (.lit d) .character)
  | .lcdNibFs8 => some (.raw (.lit nibFs8))
  | .lcdNibFs4 => some (.raw (.lit nibFs4))
  | .init | .clear | .setcur _ _ | .putc _ | .puts _ | .putsNull | .wrb _ _ => none
  | .reserved6 | .reserved7 => none

theorem isHostOp_of_emissionOf {i : Instr} (h : emissionOf i = none) : isHostOp i = true := by
  cases i with
  | init | clear | setcur _ _ | putc _ | puts _ | putsNull | wrb _ _ => rfl
  | reserved6 | reserved7 => rfl
  | lcdClear | lcdEntry | lcdDispOff | lcdDispOn | lcdFuncset => cases h
  | lcdSetDdram _ | lcdData _ | lcdNibFs8 | lcdNibFs4 => cases h

theorem exec_emissionOf {i : Instr} {p : Stmt} (h : emissionOf i = some p) (s : State) :
    exec i s = transmit params p s := by
  cases i with
  | init | clear | setcur _ _ | putc _ | puts _ | putsNull | wrb _ _ => cases h
  | reserved6 | reserved7 => cases h
  | lcdClear | lcdEntry | lcdDispOff | lcdDispOn | lcdFuncset => cases h; rfl
  | lcdSetDdram _ | lcdData _ | lcdNibFs8 | lcdNibFs4 => cases h; rfl

/-- All an instruction can do with the machine's parameters, from every state: end at decode, or carry out micro-steps of its own up to where they stop. -/
theorem exec_endsIn (i : Instr) (s : State) :
    exec i s = .next (raise .invalidArgument (begin s)) ∨
      (∃ k t, exec i s = .next t ∧ EndsIn (partway params (micros (program i)) k (begin s)) t) ∨
      ∃ p k t, emissionOf i = some p ∧ exec i s = .next t ∧
        EndsIn (partway params p.expand k s) t := by
  cases he : emissionOf i with
  | some p =>
    obtain ⟨k, t, h, ht⟩ := transmit_endsIn params_ideal p s
    exact .inr (.inr ⟨p, k, t, rfl, (exec_emissionOf he s).trans h, ht⟩)
  | none =>
    have hi := isHostOp_of_emissionOf he
    rcases Nat.eq_zero_or_pos (microCount i) with hc | hc
    · exact .inl (exec_rejected hi hc s).2
    · obtain ⟨k, t, h, ht⟩ := operate_endsIn params_ideal (program i) s
      exact .inr (.inl ⟨k, t, (exec_operation hi hc s).trans h, ht⟩)

/-! The frame of the micro-steps. -/

/-- What every micro-step leaves as it was is left so by a sequence of them. -/
theorem effects_keep {α : Type} {P : Params} (g : State → α) {ms : List Micro}
    (h : ∀ m ∈ ms, ∀ s, g (effect P m s) = g s) (s : State) : g (effects P ms s) = g s := by
  induction ms generalizing s with
  | nil => rfl
  | cons m ms ih =>
    obtain ⟨hm, hms⟩ := List.forall_mem_cons.mp h
    rw [effects_cons, ih hms, hm]

/-- Which micro-steps take a string byte. -/
theorem effect_payload {P : Params} {m : Micro} (h : m ≠ .startStringByte) (s : State) :
    (effect P m s).payload = s.payload := by
  cases m with
  | startStringByte => exact absurd rfl h
  | _ => rfl

/-- Which micro-steps write ADDR. -/
theorem effect_addr {P : Params} {m : Micro} (h : ∀ row column, m ≠ .openCursor row column)
    (s : State) : (effect P m s).addr = s.addr := by
  cases m with
  | openCursor row column => exact absurd rfl (h row column)
  | _ => rfl

/-- Which micro-steps write CNT. -/
theorem effect_cnt {P : Params} {m : Micro} (h : m ≠ .settleCount) (h' : ∀ n, m ≠ .openString n)
    (s : State) : (effect P m s).cnt = s.cnt := by
  cases m with
  | settleCount => exact absurd rfl h
  | openString n => exact absurd rfl (h' n)
  | _ => rfl

/-- The frame of an instruction that starts in `s` and carries out the micro-steps `ms`, at a state `u` it comes to. -/
structure Frame (ms : List Micro) (s u : State) : Prop where
  offers : u.offers = s.offers
  rsIn : u.rsIn = s.rsIn
  failIn : u.failIn = s.failIn
  draws : u.draws = s.draws
  trace : s.trace <+: u.trace
  payload : .startStringByte ∉ ms → u.payload = s.payload
  cw : s.rstAfter = none → u.cw = s.cw
  addr : s.rstAfter = none → (∀ row column, .openCursor row column ∉ ms) → u.addr = s.addr
  cnt : s.rstAfter = none → .settleCount ∉ ms → (∀ n, .openString n ∉ ms) → u.cnt = s.cnt

theorem frame_partway (P : Params) (ms : List Micro) (k : Nat) (s : State) :
    Frame ms s (partway P ms k s) where
  offers := effects_keep State.offers (fun m _ => effect_offers m) s
  rsIn := effects_keep State.rsIn (fun m _ => effect_rsIn m) s
  failIn := effects_keep State.failIn (fun m _ => effect_failIn m) s
  draws := effects_keep State.draws (fun m _ => effect_draws m) s
  trace := by
    rw [partway, progressed, effects_trace]
    exact List.prefix_append _ _
  payload h := effects_keep State.payload (fun m hm => effect_payload fun e =>
    h (e ▸ List.mem_of_mem_take hm)) s
  cw _ := effects_keep State.cw (fun m _ => effect_cw m) s
  addr _ h := effects_keep State.addr (fun m hm => effect_addr fun row column e =>
    h row column (e ▸ List.mem_of_mem_take hm)) s
  cnt _ h h' := effects_keep State.cnt (fun m hm => effect_cnt
    (fun e => h (e ▸ List.mem_of_mem_take hm)) fun n e => h' n (e ▸ List.mem_of_mem_take hm)) s

/-- With no reset in sight none comes due. -/
theorem partway_rstAfter {P : Params} {ms : List Micro} {k : Nat} {s : State}
    (h : s.rstAfter = none) : (partway P ms k s).rstAfter = none := by
  rw [partway, progressed_rstAfter, effects_rstAfter, h]
  rfl

/-- The frame holds wherever the micro-steps stop. -/
theorem EndsIn.frame {P : Params} {ms : List Micro} {k : Nat} {s t : State}
    (h : EndsIn (partway P ms k s) t) : Frame ms s t := by
  have hf := frame_partway P ms k s
  cases h with
  | stopped | starved => exact ⟨hf.offers, hf.rsIn, hf.failIn, hf.draws, hf.trace, hf.payload,
      hf.cw, hf.addr, hf.cnt⟩
  | done => exact ⟨hf.offers, hf.rsIn, hf.failIn, hf.draws,
      hf.trace.trans (List.prefix_append _ _), hf.payload, hf.cw, hf.addr, hf.cnt⟩
  | reset hr =>
    have hpending : s.rstAfter ≠ none := fun e => by simp [partway_rstAfter e] at hr
    exact ⟨hf.offers, hf.rsIn, hf.failIn, hf.draws, hf.trace.trans (List.prefix_append _ _),
      hf.payload, fun e => absurd e hpending, fun e => absurd e hpending,
      fun e => absurd e hpending⟩

/-! Which instructions hold the micro-steps that take a string byte or write ADDR or CNT. -/

theorem writers_mem_expand (p : Stmt) :
    (.startStringByte ∈ p.expand → p = .writeString) ∧
    (.settleCount ∈ p.expand → p = .writeString) ∧
    (∀ n, .openString n ∈ p.expand → p = .openString n) ∧
    (∀ row column, .openCursor row column ∈ p.expand → p = .openCursor row column) := by
  cases p <;> simp [Stmt.expand, sendByte, driveNibble, pulseEn]

/-- R154: only PUTS has a loop or sets CNT. -/
theorem eq_puts_of_mem_program {i : Instr} {p : Stmt} (hp : p ∈ program i)
    (h : p = .writeString ∨ ∃ n, p = .openString n) : ∃ len, i = .puts len := by
  cases i with
  | puts len => exact ⟨len, rfl⟩
  | _ =>
    obtain rfl | ⟨n, rfl⟩ := h <;>
      simp [program, initProgram, clearProgram, setcurProgram, putcProgram, wrbProgram] at hp

/-- R152: only SETCUR sets ADDR. -/
theorem eq_setcur_of_mem_program {i : Instr} {row column : Byte}
    (hp : .openCursor row column ∈ program i) : ∃ row column, i = .setcur row column := by
  cases i with
  | setcur row column => exact ⟨row, column, rfl⟩
  | _ => simp [program, initProgram, clearProgram, putcProgram, putsProgram, wrbProgram] at hp

/-- The frame of a host operation, by the instruction. -/
theorem Frame.program {i : Instr} {s t : State} (h : Frame (micros (program i)) s t) :
    ((∀ len, i ≠ .puts len) → t.payload = s.payload) ∧
    (s.rstAfter = none →
      ((∀ row column, i ≠ .setcur row column) → t.addr = s.addr) ∧
      ((∀ len, i ≠ .puts len) → t.cnt = s.cnt)) := by
  have hmem : ∀ m ∈ micros (Machine.program i), ∃ p ∈ Machine.program i, m ∈ p.expand :=
    fun m hm => List.mem_flatMap.mp hm
  refine ⟨fun hi => h.payload fun hm => ?_, fun hr => ⟨fun hi => h.addr hr fun row column hm => ?_,
    fun hi => h.cnt hr (fun hm => ?_) fun n hm => ?_⟩⟩
  · obtain ⟨p, hp, hx⟩ := hmem _ hm
    obtain ⟨hbyte, -, -, -⟩ := writers_mem_expand p
    obtain ⟨len, e⟩ := eq_puts_of_mem_program hp (.inl (hbyte hx))
    exact hi len e
  · obtain ⟨p, hp, hx⟩ := hmem _ hm
    obtain ⟨-, -, -, hcursor⟩ := writers_mem_expand p
    obtain rfl := hcursor row column hx
    obtain ⟨row, column, e⟩ := eq_setcur_of_mem_program hp
    exact hi row column e
  · obtain ⟨p, hp, hx⟩ := hmem _ hm
    obtain ⟨-, hcount, -, -⟩ := writers_mem_expand p
    obtain ⟨len, e⟩ := eq_puts_of_mem_program hp (.inl (hcount hx))
    exact hi len e
  · obtain ⟨p, hp, hx⟩ := hmem _ hm
    obtain ⟨-, -, hstring, -⟩ := writers_mem_expand p
    obtain ⟨len, e⟩ := eq_puts_of_mem_program hp (.inr ⟨n, hstring n hx⟩)
    exact hi len e

/-- R77 to R79: an emission is a byte write or a raw nibble. -/
theorem emissionOf_cases {i : Instr} {p : Stmt} (h : emissionOf i = some p) :
    (∃ src m, p = .write src m) ∨ ∃ src, p = .raw src := by
  cases i with
  | init | clear | setcur _ _ | putc _ | puts _ | putsNull | wrb _ _ => cases h
  | reserved6 | reserved7 => cases h
  | lcdClear | lcdEntry | lcdDispOff | lcdDispOn | lcdFuncset => cases h; exact .inl ⟨_, _, rfl⟩
  | lcdSetDdram _ | lcdData _ => cases h; exact .inl ⟨_, _, rfl⟩
  | lcdNibFs8 | lcdNibFs4 => cases h; exact .inr ⟨_, rfl⟩

/-- An emission writes neither the payload nor ADDR nor CNT. -/
theorem Frame.emission {i : Instr} {p : Stmt} (hp : emissionOf i = some p) {s t : State}
    (h : Frame p.expand s t) :
    t.payload = s.payload ∧ (s.rstAfter = none → t.addr = s.addr ∧ t.cnt = s.cnt) := by
  obtain ⟨hbyte, hcount, hstring, hcursor⟩ := writers_mem_expand p
  obtain ⟨hloop, hopen, hcur⟩ :
      p ≠ .writeString ∧ (∀ n, p ≠ .openString n) ∧ ∀ row column, p ≠ .openCursor row column := by
    rcases emissionOf_cases hp with ⟨src, m, rfl⟩ | ⟨src, rfl⟩ <;> simp
  exact ⟨h.payload (hloop ∘ hbyte), fun hr => ⟨h.addr hr fun row column =>
    hcur row column ∘ hcursor row column,
    h.cnt hr (hloop ∘ hcount) fun n => hopen n ∘ hstring n⟩⟩

/-- Settles O42: wherever the micro-steps of an instruction stop, their frame holds (`EndsIn.frame`). -/
theorem instructionsTouchOnlyTheirLatches : Obligations.InstructionsTouchOnlyTheirLatches := by
  unfold Obligations.InstructionsTouchOnlyTheirLatches
  intro i s t ht
  rcases exec_endsIn i s with h | ⟨k, u, h, hu⟩ | ⟨p, k, u, hp, h, hu⟩
  · obtain rfl := Host.Outcome.next.inj (h.symm.trans ht)
    exact ⟨rfl, rfl, rfl, rfl, List.prefix_append _ _, fun _ => rfl,
      fun _ => ⟨rfl, fun _ => rfl, fun _ => rfl⟩⟩
  · obtain rfl := Host.Outcome.next.inj (h.symm.trans ht)
    have hf := hu.frame
    obtain ⟨hpayload, hlatches⟩ := hf.program
    exact ⟨hf.offers, hf.rsIn, hf.failIn, hf.draws, hf.trace, hpayload,
      fun hr => ⟨hf.cw hr, hlatches hr⟩⟩
  · obtain rfl := Host.Outcome.next.inj (h.symm.trans ht)
    have hf := hu.frame
    obtain ⟨hpayload, hlatches⟩ := hf.emission hp
    exact ⟨hf.offers, hf.rsIn, hf.failIn, hf.draws, hf.trace, fun _ => hpayload,
      fun hr => ⟨hf.cw hr, fun _ => (hlatches hr).1, fun _ => (hlatches hr).2⟩⟩

/-! The causes of the conditions. -/

/-- R24: no micro-step is a `Done`. -/
theorem done_notMem_eventsOf (P : Params) (e : ErrCode) (ms : List Micro) (s : State) :
    .done e ∉ eventsOf P ms s := by
  induction ms generalizing s with
  | nil => exact List.not_mem_nil
  | cons m ms ih =>
    have hm : .done e ∉ microEvents P m s := by
      cases m <;> simp [microEvents, settleEvents_eq]
    rw [eventsOf_cons, List.mem_append]
    exact fun h => h.elim hm (ih _)

/-- What the end of an operation adds to the trace is no condition. -/
theorem EndsIn.trace {u t : State} (h : EndsIn u t) :
    ∃ es, t.trace = u.trace ++ es ∧ ∀ e ≠ ErrCode.ok, .done e ∉ es := by
  cases h with
  | stopped | starved => exact ⟨[], (List.append_nil _).symm, fun _ _ => List.not_mem_nil⟩
  | done => exact ⟨[.done .ok], rfl, fun e he => by simpa using he⟩
  | reset _ => exact ⟨[.reset], rfl, fun _ _ => by simp⟩

/-- An operation that has micro-steps ends with no condition, wherever it leaves off. -/
theorem operate_noCondition {P : Params} (hP : IdealCollaborators P) (p : List Stmt) (s : State) :
    ∃ t es, operate P p s = .next t ∧ t.trace = s.trace ++ es ∧
      ∀ e ≠ ErrCode.ok, .done e ∉ es := by
  obtain ⟨k, t, h, ht⟩ := operate_endsIn hP p s
  obtain ⟨es, htrace, hes⟩ := ht.trace
  refine ⟨t, eventsOf P ((micros p).take k) (begin s) ++ es, h, ?_, fun e he hmem => ?_⟩
  · simp [htrace, partway, progressed, effects_trace]
  · exact (List.mem_append.mp hmem).elim (done_notMem_eventsOf P e _ _) (hes e he)

/-- Settles O34: an operation without micro-steps is one of the three and does nothing but `raise`; one with micro-steps ends with no condition (`operate_noCondition`). -/
theorem conditionsHaveExactlyTheirCauses : Obligations.ConditionsHaveExactlyTheirCauses := by
  unfold Obligations.ConditionsHaveExactlyTheirCauses
  intro i s hi
  rcases Nat.eq_zero_or_pos (microCount i) with hc | hc
  · obtain ⟨hcause, h⟩ := exec_rejected hi hc s
    exact ⟨_, [.done .invalidArgument], h, rfl, by simp [hcause], fun _ => ⟨rfl, rfl⟩, by simp⟩
  · obtain ⟨t, es, h, htrace, hes⟩ := operate_noCondition params_ideal (program i) s
    have hnone := hes .invalidArgument (by decide)
    have hcause : ¬(i = .putsNull ∨ i = .reserved6 ∨ i = .reserved7) := by
      rintro (rfl | rfl | rfl) <;> exact absurd hc (Nat.lt_irrefl 0)
    exact ⟨t, es, (exec_operation hi hc s).trans h, htrace, iff_of_false hnone hcause,
      fun hmem => absurd hmem hnone, hes .hardwareUnavailable (by decide)⟩

end Sys2Proof.Machine

/-! PROOFS. Collaborator failures (60_exceptions.md R202, R204): which calls of an operation succeed, and the one that ends it. -/

namespace Sys2Proof.Machine

/-- The state with other inputs for the failures of its collaborators (R202, log 8). -/
def State.failing (s : State) (fs : List Bool) : State := { s with failIn := fs }

theorem unseen_failing (P : Params) (fs : List Bool) : Unseen P (·.failing fs) where
  effect m s := by
    cases m with
    | startByte src _ => cases src <;> rfl
    | dataBit _ src _ => cases src <;> rfl
    | _ => rfl
  microEvents m s := by
    cases m with
    | dataBit _ src _ => cases src <;> rfl
    | _ => rfl

/-! One call. -/

theorem attempt_of_success {α : Type} {P : Params} (h : P.collabFaults = true) {s : State}
    {fs : List Bool} (hs : s.failIn = false :: fs) (f : State → α) :
    attempt P f s = .going (f (s.failing fs)) := by
  simp [attempt, collabOutcome, h, hs, State.failing]

theorem attempt_of_failure {α : Type} {P : Params} (h : P.collabFaults = true) {s : State}
    {fs : List Bool} (hs : s.failIn = true :: fs) (f : State → α) :
    attempt P f s = .halted (raise .hardwareUnavailable (s.failing fs)) := by
  simp [attempt, collabOutcome, h, hs, State.failing]

/-- The parameters with collaborators that cannot fail. -/
def withoutFaults (P : Params) : Params := { P with collabFaults := false }

/-- A call that succeeds uses up its input and is otherwise a call that cannot fail. -/
theorem attempt_eq_withoutFaults {α : Type} {P : Params} (h : P.collabFaults = true) {s : State}
    {fs : List Bool} (hs : s.failIn = false :: fs) (f : State → α) :
    attempt P f s = attempt (withoutFaults P) f (s.failing fs) :=
  (attempt_of_success h hs f).trans (attempt_of_infallible rfl f _).symm

/-! One micro-step. -/

/-- How many calls a micro-step makes: a settle delay makes two (log 19). -/
def Micro.calls (m : Micro) : Nat := if m.samplesRs then 2 else 1

theorem length_microEvents (P : Params) (m : Micro) (s : State) :
    (microEvents P m s).length = m.calls := by
  cases m <;> simp [microEvents, Micro.calls, Micro.samplesRs, settleEvents_eq]

theorem driveLine_of_success {P : Params} (h : P.collabFaults = true) {s : State} {fs : List Bool}
    (hs : s.failIn = false :: fs) (l : Line) (v : Level) :
    driveLine P l v s = driveLine (withoutFaults P) l v (s.failing fs) :=
  attempt_eq_withoutFaults h hs _

theorem waitFor_of_success {P : Params} (h : P.collabFaults = true) {s : State} {fs : List Bool}
    (hs : s.failIn = false :: fs) (k : WaitClass) :
    waitFor P k s = waitFor (withoutFaults P) k (s.failing fs) :=
  attempt_eq_withoutFaults h hs _

theorem gpioGetRs_of_success {P : Params} (h : P.collabFaults = true) (hl : P.rsLoopback = true)
    {s : State} {fs : List Bool} (hs : s.failIn = false :: fs) :
    gpioGetRs P s = .going (s.out.rs, emit (.sample .rs s.out.rs) (s.failing fs)) := by
  rw [gpioGetRs, attempt_of_success h hs, rsReadBack_of_loopback hl]
  rfl

theorem settleDelay_of_success {P : Params} (h : P.collabFaults = true) (hl : P.rsLoopback = true)
    {s : State} {fs : List Bool} (hs : s.failIn = false :: false :: fs) :
    settleDelay P s = settleDelay (withoutFaults P) (s.failing fs) := by
  have hl' : (withoutFaults P).rsLoopback = true := hl
  rw [settleDelay, gpioGetRs_of_success h hl hs, Run.bind_going,
    waitFor_of_success h (fs := fs) rfl, settleDelay, gpioGetRs, attempt_of_infallible rfl,
    rsReadBack_of_loopback hl', Run.bind_going]
  rfl

/-- A micro-step all of whose calls succeed. -/
theorem act_of_success {P : Params} (h : P.collabFaults = true) (hl : P.rsLoopback = true)
    {m : Micro} {s : State} {fs : List Bool} (hb : m = .startStringByte → s.payload ≠ [])
    (hs : s.failIn = List.replicate m.calls false ++ fs) :
    act P m s = act (withoutFaults P) m (s.failing fs) := by
  cases m with
  | drive l v => exact driveLine_of_success h hs l v
  | wait k => exact waitFor_of_success h hs k
  | settle => exact settleDelay_of_success h hl hs
  | settleCount => exact congrArg (Run.map _) (settleDelay_of_success h hl hs)
  | startByte src m =>
    cases src <;> exact driveLine_of_success h (s := { s with byte := _, mode := m }) hs .rs m.level
  | startStringByte =>
    obtain ⟨b, bs, e⟩ := List.exists_cons_of_ne_nil (hb rfl)
    have e' : (s.failing fs).payload = b :: bs := e
    simp only [act, e, e']
    exact driveLine_of_success h
      (s := { s with payload := bs, byte := b, mode := .character }) hs .rs .high
  | dataBit l src i => cases src <;> exact driveLine_of_success h hs l _
  | openCursor row column =>
    exact driveLine_of_success h (s := { s with addr := map P row column }) hs .rs .low
  | openString n => exact congrArg (Run.map _) (driveLine_of_success h hs .rs .high)

theorem perform_of_success {P : Params} (h : P.collabFaults = true) (hl : P.rsLoopback = true)
    {m : Micro} {s : State} {fs : List Bool} (hr : s.rstAfter ≠ some 0)
    (hb : m = .startStringByte → s.payload ≠ [])
    (hs : s.failIn = List.replicate m.calls false ++ fs) :
    perform P m s = .going (progressed 1 (microEvents P m s) (effect P m (s.failing fs))) := by
  have hact : act P m (waiting s) = act (withoutFaults P) m (waiting (s.failing fs)) :=
    act_of_success h hl hb hs
  have hideal := perform_ideal (P := withoutFaults P) ⟨rfl, hl⟩ (m := m) (s := s.failing fs) hr hb
  rw [perform_of_clear (s := s.failing fs) hr, ← hact, ← perform_of_clear hr,
    (unseen_failing (withoutFaults P) fs).microEvents] at hideal
  exact hideal

/-- The run has ended with HardwareUnavailable after the events `es` since `s`: the latches hold what these wrote, and of the failure inputs `rest` is left (R202). -/
def FailsAfter (es : List Event) (rest : List Bool) (s : State) (r : Run State) : Prop :=
  ∃ u, r = .halted (raise .hardwareUnavailable u) ∧ u.trace = s.trace ++ es ∧
    u.out = es.foldl Latches.after s.out ∧ u.failIn = rest

/-- A call that fails: none of its events has happened. -/
theorem driveLine_of_failure {P : Params} (h : P.collabFaults = true) {s : State}
    {rest : List Bool} (hs : s.failIn = true :: rest) (l : Line) (v : Level) :
    driveLine P l v s = .halted (raise .hardwareUnavailable (s.failing rest)) :=
  attempt_of_failure h hs _

/-- A settle delay fails at its sample, or at its wait with the sample taken (log 19). -/
theorem settleDelay_of_failure {P : Params} (h : P.collabFaults = true) (hl : P.rsLoopback = true)
    {s : State} {j : Nat} {rest : List Bool} (hj : j < 2)
    (hs : s.failIn = List.replicate j false ++ true :: rest) :
    FailsAfter ((settleEvents P s.out.rs).take j) rest s (settleDelay P s) := by
  rw [settleEvents_eq]
  obtain rfl | rfl : j = 0 ∨ j = 1 := by omega
  · exact ⟨s.failing rest, by rw [settleDelay, gpioGetRs, attempt_of_failure h hs]; rfl,
      (List.append_nil _).symm, rfl, rfl⟩
  · refine ⟨emit (.sample .rs s.out.rs) (s.failing rest), ?_, rfl, rfl, rfl⟩
    rw [settleDelay, gpioGetRs_of_success h hl hs, Run.bind_going, waitFor,
      attempt_of_failure h (fs := rest) rfl]
    rfl

theorem FailsAfter.map {es : List Event} {rest : List Bool} {s : State} {r : Run State}
    (h : FailsAfter es rest s r) (f : State → State) : FailsAfter es rest s (r.map f) := by
  obtain ⟨u, rfl, hu⟩ := h
  exact ⟨u, rfl, hu⟩

/-- A micro-step one of whose calls fails. -/
theorem act_of_failure {P : Params} (h : P.collabFaults = true) (hl : P.rsLoopback = true)
    {m : Micro} {s : State} {j : Nat} {rest : List Bool}
    (hb : m = .startStringByte → s.payload ≠ []) (hj : j < m.calls)
    (hs : s.failIn = List.replicate j false ++ true :: rest) :
    FailsAfter ((microEvents P m s).take j) rest s (act P m s) := by
  cases hm : m.samplesRs with
  | true =>
    rw [Micro.calls, if_pos hm] at hj
    cases m with
    | settle => exact settleDelay_of_failure h hl hj hs
    | settleCount => exact (settleDelay_of_failure h hl hj hs).map _
    | _ => cases hm
  | false =>
    rw [Micro.calls, hm] at hj
    obtain rfl : j = 0 := Nat.lt_one_iff.mp hj
    have hdrive : ∀ (t : State) (l : Line) (v : Level), t.trace = s.trace → t.out = s.out →
        t.failIn = s.failIn → FailsAfter [] rest s (driveLine P l v t) := fun t l v ht ho hf =>
      ⟨t.failing rest, driveLine_of_failure h (hf.trans hs) l v,
        ht.trans (List.append_nil _).symm, ho, rfl⟩
    cases m with
    | settle | settleCount => cases hm
    | wait k =>
      exact ⟨s.failing rest, attempt_of_failure h hs _, (List.append_nil _).symm, rfl, rfl⟩
    | startStringByte =>
      obtain ⟨b, bs, e⟩ := List.exists_cons_of_ne_nil (hb rfl)
      simp only [act, e]
      exact hdrive _ _ _ rfl rfl rfl
    | openString n => exact (hdrive s .rs .high rfl rfl rfl).map _
    | drive l v => exact hdrive _ _ _ rfl rfl rfl
    | startByte src m => exact hdrive _ _ _ rfl rfl rfl
    | dataBit l src i => exact hdrive _ _ _ rfl rfl rfl
    | openCursor row column => exact hdrive _ _ _ rfl rfl rfl

theorem microEvents_waiting (P : Params) (m : Micro) (s : State) :
    microEvents P m (waiting s) = microEvents P m s := by
  cases m with
  | dataBit _ src _ => cases src <;> rfl
  | _ => rfl

theorem perform_of_failure {P : Params} (h : P.collabFaults = true) (hl : P.rsLoopback = true)
    {m : Micro} {s : State} {j : Nat} {rest : List Bool} (hr : s.rstAfter ≠ some 0)
    (hb : m = .startStringByte → s.payload ≠ []) (hj : j < m.calls)
    (hs : s.failIn = List.replicate j false ++ true :: rest) :
    FailsAfter ((microEvents P m s).take j) rest s (perform P m s) := by
  have hact := (act_of_failure h hl (s := waiting s) hb hj hs).map advance
  rw [microEvents_waiting, ← perform_of_clear hr] at hact
  exact hact

/-! A run of micro-steps. -/

theorem FailsAfter.bind {es : List Event} {rest : List Bool} {s : State} {r : Run State}
    (h : FailsAfter es rest s r) (f : State → Run State) : FailsAfter es rest s (r.bind f) := by
  obtain ⟨u, rfl, hu⟩ := h
  exact ⟨u, rfl, hu⟩

/-- A failure after a micro-step that succeeded. -/
theorem FailsAfter.prepend {P : Params} {m : Micro} {s : State} {fs : List Bool} {es : List Event}
    {rest : List Bool} {r : Run State}
    (h : FailsAfter es rest (progressed 1 (microEvents P m s) (effect P m (s.failing fs))) r) :
    FailsAfter (microEvents P m s ++ es) rest s r := by
  obtain ⟨u, hu, htrace, hout, hfail⟩ := h
  rw [(unseen_failing P fs).effect] at htrace hout
  refine ⟨u, hu, ?_, ?_, hfail⟩
  · simpa [progressed, State.failing] using htrace
  · rw [List.foldl_append, ← effect_out P m s]
    exact hout

/-- A failure `k` calls from now ends the run with the first `k` of its events. -/
theorem runMicros_of_failure {P : Params} (h : P.collabFaults = true) (hl : P.rsLoopback = true)
    {ms : List Micro} {s : State} {k : Nat} {rest : List Bool}
    (hs : s.failIn = List.replicate k false ++ true :: rest) (hk : k < (eventsOf P ms s).length)
    (hr : NoResetWithin ms.length s) (hb : bytesTaken ms ≤ s.payload.length) :
    FailsAfter ((eventsOf P ms s).take k) rest s (runMicros P ms s) := by
  induction ms generalizing s k with
  | nil => simp at hk
  | cons m ms ih =>
    obtain ⟨hbyte, hbytes⟩ := bytesTaken_effect (P := P) hb
    have hlen := length_microEvents P m s
    rcases Nat.lt_or_ge k m.calls with hlt | hge
    · rw [eventsOf_cons, List.take_append_of_le_length (hlen.symm ▸ hlt.le)]
      exact (perform_of_failure h hl hr.not_due hbyte hlt hs).bind _
    · obtain ⟨j, rfl⟩ := Nat.exists_eq_add_of_le hge
      rw [List.replicate_add, List.append_assoc] at hs
      rw [eventsOf_cons, ← hlen, List.length_append, Nat.add_lt_add_iff_left] at hk
      rw [runMicros_cons (perform_of_success h hl hr.not_due hbyte hs), eventsOf_cons, ← hlen,
        List.take_length_add_append]
      have hfuture : eventsOf P ms (progressed 1 (microEvents P m s)
          (effect P m (s.failing (List.replicate j false ++ true :: rest)))) =
          eventsOf P ms (effect P m s) := by
        rw [eventsOf_progressed, (unseen_failing P _).effect, (unseen_failing P _).eventsOf]
      refine FailsAfter.prepend (hfuture ▸ ih ?_ (hfuture.symm ▸ hk) ?_ ?_)
      · exact effect_failIn m _
      · exact hr.after (Nat.add_comm 1 _).le _ (effect_rstAfter m _)
      · rw [progressed_payload, (unseen_failing P _).effect]
        exact hbytes

/-- R202: an operation whose row is not refused, with the first failing call inside it. -/
theorem execWith_of_failure {P : Params} (h : P.collabFaults = true) (hl : P.rsLoopback = true)
    {i : Instr} {s : State} {k : Nat} {rest : List Bool} (hi : isHostOp i = true)
    (hrow : RowAccepted P i) (hready : StringReady i s) (hr : NoResetWithin (microCount i) s)
    (hk : k < (fullEvents P (stringOf s i) i).length)
    (hs : s.failIn = List.replicate k false ++ true :: rest) :
    ∃ u, execWith P i s = .next (raise .hardwareUnavailable u) ∧
      u.trace = s.trace ++ (fullEvents P (stringOf s i) i).take k ∧
      u.out = ((fullEvents P (stringOf s i) i).take k).foldl Latches.after s.out ∧
      u.failIn = rest := by
  have hevents := eventsOf_program P hi (s := begin s) hready
  rw [stringOf_begin] at hevents
  have hc : 0 < microCount i := by
    rw [← length_program hi, List.length_pos_iff]
    intro hnil
    rw [← hevents, hnil] at hk
    exact Nat.not_lt_zero k hk
  obtain ⟨u, hrun, hu⟩ := runMicros_of_failure h hl (ms := micros (program i)) (s := begin s) hs
    (hevents ▸ hk) (by rw [length_program hi]; exact hr.begin) (bytesTaken_program hi hready)
  rw [hevents] at hu
  exact ⟨u, by rw [execWith_operation hi hc hrow, operate_eq_close, hrun]; rfl, hu⟩

/-- Settles O35: `execWith_of_failure`; what ends at decode makes no call (`execWith_rejected`, `execWith_refusedRow`). -/
theorem collaboratorFailureEndsTheOperation : Obligations.CollaboratorFailureEndsTheOperation := by
  unfold Obligations.CollaboratorFailureEndsTheOperation
  refine ⟨fun P i s k rest h hl hi hrow hready hr hk hs => ?_, ?_,
    fun _ _ _ _ _ _ _ _ => ⟨rfl, rfl, rfl, rfl, rfl, rfl⟩⟩
  · obtain ⟨u, hexec, htrace, hout, hfail⟩ := execWith_of_failure h hl hi hrow hready hr hk hs
    exact ⟨_, hexec, by rw [raise_trace, htrace], hout, rfl, rfl, hfail⟩
  · rintro P i s (rfl | rfl | rfl | ⟨row, column, rfl, hrow⟩)
    · exact (execWith_rejected P rfl rfl s).2
    · exact (execWith_rejected P rfl rfl s).2
    · exact (execWith_rejected P rfl rfl s).2
    · exact execWith_refusedRow hrow column s

end Sys2Proof.Machine
